-- ==== Sys2Proof/Config.lean ====
section
/-! DEFINITION. What a configuration fixes (spec/00_scope.md R6 to R8, spec/20_memory.md R61): the PTX version and the
target, their defaults, the requirement of each group of forms, and the open byte order. -/

namespace Sys2Proof

/-- `ptx_version` of R6: a pair (major, minor). -/
structure PtxVersion where
  major : Nat
  minor : Nat
deriving DecidableEq, Repr

/-- `v.atLeast w`: `w ≤ v` in the lexicographic order of R6. -/
def PtxVersion.atLeast (v w : PtxVersion) : Bool :=
  decide (w.major < v.major) || (decide (w.major = v.major) && decide (w.minor ≤ v.minor))

/-- What a form requires (R6, R7): the PTX version that introduced it, and the least `NN` of the targets `sm_NN` it runs
on (0 where the spec says "Supported on all target architectures."). -/
structure Gate where
  version : PtxVersion
  target : Nat
deriving DecidableEq, Repr

namespace Config

/-- The default of `ptx_version`: (8, 2), the least version that admits all 38 forms (R6). -/
def defaultPtxVersion : PtxVersion := ⟨8, 2⟩

/-- The default of `sm_target`: 70, the least target that admits all 38 forms (R7). -/
def defaultSmTarget : Nat := 70

/-- `and`, `or`, `xor`, `not`, `cnot`, `shl`, `shr`: PTX 1.0, every target (R6, R7). -/
def gateBase : Gate := ⟨⟨1, 0⟩, 0⟩

/-- `shf`: PTX 3.1, `sm_32` or higher (R6, R7, R211). -/
def gateShf : Gate := ⟨⟨3, 1⟩, 32⟩

/-- `lop3` without `.BoolOp`: PTX 4.3, `sm_50` or higher (R6, R7, R187). -/
def gateLop3 : Gate := ⟨⟨4, 3⟩, 50⟩

/-- `lop3` with `.BoolOp`: PTX 8.2, `sm_70` or higher (R6, R7, R187). -/
def gateLop3Bool : Gate := ⟨⟨8, 2⟩, 70⟩

end Config

/-- The two values of the open parameter `byte_order` (R61). -/
inductive ByteOrder where
  | little
  | big
deriving DecidableEq, Repr, Inhabited

/-- The parameter `byte_order` of R61 and D10: it has no default, and no rule reads it. It is kept without a body so that
nothing can be proved of which order it is; no definition of the model uses it. -/
opaque Config.byteOrder : ByteOrder

end Sys2Proof
end

