-- ==== Sys2Proof/Word.lean ====
section
/-! DEFINITION. The width classes of operands and registers (spec/00_scope.md R9, R12) and the byte. -/

namespace Sys2Proof

/-- The four width classes of R9: a predicate (1 bit), 16, 32 and 64 bits. The class of a register is its size alone;
whether it was declared as bits, integer or float is no part of it (R9, R38). -/
inductive Width where
  | pred
  | w16
  | w32
  | w64
deriving DecidableEq, Repr

/-- The operand size `N` of R12: 1, 16, 32 or 64. -/
abbrev Width.bits : Width → Nat
  | .pred => 1
  | .w16 => 16
  | .w32 => 32
  | .w64 => 64

/-- One byte of the stored program text (one ASCII character: notes/assumptions/6.md). -/
abbrev Byte := BitVec 8

end Sys2Proof
end

