-- ==== Sys2Proof/Syntax.lean ====
section
/-! DEFINITION. The abstract syntax of the text-level instruction set (spec/30_encoding.md R82, R91, R92): register names,
operands, and one constructor of `Instr` for each of the 38 rows of spec/opcode_table.json. The constructors admit every
combination of operands; `WellFormed.lean` says which the instruction set admits (R91). -/

namespace Sys2Proof

/-- A register name: an opaque token, here the characters of its spelling (R32, R86). -/
abbrev RegName := List Char

/-- A source operand (R85, R91): a register name, or an integer literal, which is only its value (R87). -/
inductive Src where
  | reg (r : RegName)
  | imm (v : Nat)
deriving DecidableEq, Repr

/-- The `d` part of `d|p` (R96): a register, or the sink symbol `_`, which discards the value. -/
inductive DstSink where
  | reg (r : RegName)
  | sink
deriving DecidableEq, Repr

/-- The instructions: one constructor per form of R92. -/
inductive Instr where
  /-- `and.pred d, a, b;` (R131). -/
  | andPred (d : RegName) (a b : Src)
  /-- `and.b16 d, a, b;` (R132). -/
  | andB16 (d : RegName) (a b : Src)
  /-- `and.b32 d, a, b;` (R133). -/
  | andB32 (d : RegName) (a b : Src)
  /-- `and.b64 d, a, b;` (R134). -/
  | andB64 (d : RegName) (a b : Src)
  /-- `or.pred d, a, b;` (R141). -/
  | orPred (d : RegName) (a b : Src)
  /-- `or.b16 d, a, b;` (R142). -/
  | orB16 (d : RegName) (a b : Src)
  /-- `or.b32 d, a, b;` (R143). -/
  | orB32 (d : RegName) (a b : Src)
  /-- `or.b64 d, a, b;` (R144). -/
  | orB64 (d : RegName) (a b : Src)
  /-- `xor.pred d, a, b;` (R151). -/
  | xorPred (d : RegName) (a b : Src)
  /-- `xor.b16 d, a, b;` (R152). -/
  | xorB16 (d : RegName) (a b : Src)
  /-- `xor.b32 d, a, b;` (R153). -/
  | xorB32 (d : RegName) (a b : Src)
  /-- `xor.b64 d, a, b;` (R154). -/
  | xorB64 (d : RegName) (a b : Src)
  /-- `not.pred d, a;` (R161). -/
  | notPred (d : RegName) (a : Src)
  /-- `not.b16 d, a;` (R162). -/
  | notB16 (d : RegName) (a : Src)
  /-- `not.b32 d, a;` (R163). -/
  | notB32 (d : RegName) (a : Src)
  /-- `not.b64 d, a;` (R164). -/
  | notB64 (d : RegName) (a : Src)
  /-- `cnot.b16 d, a;` (R171). -/
  | cnotB16 (d : RegName) (a : Src)
  /-- `cnot.b32 d, a;` (R172). -/
  | cnotB32 (d : RegName) (a : Src)
  /-- `cnot.b64 d, a;` (R173). -/
  | cnotB64 (d : RegName) (a : Src)
  /-- `lop3.b32 d, a, b, c, immLut;` (R183). -/
  | lop3B32 (d : RegName) (a b c : Src) (immLut : Nat)
  /-- `lop3.or.b32 d|p, a, b, c, immLut, q;` (R184). -/
  | lop3OrB32 (d : DstSink) (p : RegName) (a b c : Src) (immLut : Nat) (q : Src)
  /-- `lop3.and.b32 d|p, a, b, c, immLut, q;` (R185). -/
  | lop3AndB32 (d : DstSink) (p : RegName) (a b c : Src) (immLut : Nat) (q : Src)
  /-- `shf.l.clamp.b32 d, a, b, c;` (R202). -/
  | shfLClampB32 (d : RegName) (a b c : Src)
  /-- `shf.l.wrap.b32 d, a, b, c;` (R203). -/
  | shfLWrapB32 (d : RegName) (a b c : Src)
  /-- `shf.r.clamp.b32 d, a, b, c;` (R204). -/
  | shfRClampB32 (d : RegName) (a b c : Src)
  /-- `shf.r.wrap.b32 d, a, b, c;` (R205). -/
  | shfRWrapB32 (d : RegName) (a b c : Src)
  /-- `shl.b16 d, a, b;` (R221). -/
  | shlB16 (d : RegName) (a b : Src)
  /-- `shl.b32 d, a, b;` (R222). -/
  | shlB32 (d : RegName) (a b : Src)
  /-- `shl.b64 d, a, b;` (R223). -/
  | shlB64 (d : RegName) (a b : Src)
  /-- `shr.b16 d, a, b;` (R232). -/
  | shrB16 (d : RegName) (a b : Src)
  /-- `shr.b32 d, a, b;` (R233). -/
  | shrB32 (d : RegName) (a b : Src)
  /-- `shr.b64 d, a, b;` (R234). -/
  | shrB64 (d : RegName) (a b : Src)
  /-- `shr.u16 d, a, b;` (R235). -/
  | shrU16 (d : RegName) (a b : Src)
  /-- `shr.u32 d, a, b;` (R236). -/
  | shrU32 (d : RegName) (a b : Src)
  /-- `shr.u64 d, a, b;` (R237). -/
  | shrU64 (d : RegName) (a b : Src)
  /-- `shr.s16 d, a, b;` (R238). -/
  | shrS16 (d : RegName) (a b : Src)
  /-- `shr.s32 d, a, b;` (R239). -/
  | shrS32 (d : RegName) (a b : Src)
  /-- `shr.s64 d, a, b;` (R240). -/
  | shrS64 (d : RegName) (a b : Src)
deriving DecidableEq, Repr

end Sys2Proof
end

