-- ==== Sys2Proof/WellFormed.lean ====
section
/-! DEFINITION. Well-formedness (spec/30_encoding.md R82 to R89, R99 to R112): the names of the refusals, the parameters a
program is checked under, the format of every form with the operands it reads and writes (spec/10_state.md R34), and the
checks that concern a term. The checks that concern spelling are in Decode.lean. -/

namespace Sys2Proof

/-- Why a program is refused: the named checks of R100 to R111. -/
inductive IllFormed where
  /-- R100: the opcode name is not one of the nine. -/
  | unknownOpcode
  /-- R101: the qualifiers make none of the 38 mnemonics. -/
  | badQualifiers
  /-- R102: the number or shape of the operands is not the format's. -/
  | operandCount
  /-- R103: a destination is a literal. -/
  | badDestination
  /-- R104: `_` anywhere but as the `d` part of `d|p`. -/
  | sinkMisuse
  /-- R105: a register that `RegDecl` does not declare. -/
  | undeclaredRegister
  /-- R106: a register whose class is not the class of its position. -/
  | widthMismatch
  /-- R107: a literal at a predicate position, one that does not fit, or one in a spelling R87 does not admit. -/
  | literalMisuse
  /-- R108: `immLut` is no literal, or above 255. -/
  | badImmLut
  /-- R109: the requirement of the form (R6, R7) is not met. -/
  | versionOrTarget
  /-- R110: syntax that the spec excludes (a guard, a negated, vector or address operand, a label, a directive). -/
  | excludedSyntax
  /-- R111: a missing comma, semicolon or vertical bar. -/
  | badPunctuation
deriving DecidableEq, Repr

/-- `RegDecl` of R9: a finite map from register names to width classes, as a list of entries. Of two entries of one name
the first counts (notes/assumptions/13.md). -/
abbrev RegDecl := List (RegName × Width)

/-- The class `RegDecl` gives a name, or none if the name is no key of it. -/
def RegDecl.classOf : RegDecl → RegName → Option Width
  | [], _ => none
  | (k, w) :: rest, r => if k = r then some w else RegDecl.classOf rest r

/-- The parameters of a run (R6, R7, R9, R42): fixed for the whole of it, no instruction changes them. The program is
held as its text. -/
structure Params where
  program : List Char
  decl : RegDecl
  ptxVersion : PtxVersion
  smTarget : Nat
deriving DecidableEq, Repr

/-! ## Register names -/

/-- A letter, upper or lower case. -/
def isLetter (c : Char) : Bool :=
  (decide (65 ≤ c.toNat) && decide (c.toNat ≤ 90)) || (decide (97 ≤ c.toNat) && decide (c.toNat ≤ 122))

/-- A decimal digit. -/
def isDigit (c : Char) : Bool :=
  decide (48 ≤ c.toNat) && decide (c.toNat ≤ 57)

/-- A character a register name may start with (R86). -/
def isNameStart (c : Char) : Bool :=
  isLetter c || c = '%' || c = '$' || c = '_'

/-- A character a register name may continue with (R86). -/
def isNameChar (c : Char) : Bool :=
  isLetter c || isDigit c || c = '_' || c = '$'

/-- R86: the spelling of a register name; the single character `_` is the sink symbol and no name. -/
def isRegName : RegName → Bool
  | [] => false
  | c :: cs => isNameStart c && cs.all isNameChar && !(c = '_' && cs.isEmpty)

/-! ## Formats -/

/-- A term seen through its format (R82): the mnemonic, the class `w` of the type suffix, and the operands. `f3` is format
F3 with both sources of class `w`; `f3Shift` is format F3 of `shl` and `shr`, whose `b` has class 32 (R84, R89). -/
inductive Layout where
  | f2 (mnemonic : String) (w : Width) (d : RegName) (a : Src)
  | f3 (mnemonic : String) (w : Width) (d : RegName) (a b : Src)
  | f3Shift (mnemonic : String) (w : Width) (d : RegName) (a b : Src)
  | fl (mnemonic : String) (d : RegName) (a b c : Src) (immLut : Nat)
  | flb (mnemonic : String) (d : DstSink) (p : RegName) (a b c : Src) (immLut : Nat) (q : Src)
  | fs (mnemonic : String) (d : RegName) (a b c : Src)
deriving DecidableEq, Repr

/-- The format, mnemonic and classes of every form: the opcode map of R92 with the classes of R34 and R84. -/
def Instr.layout : Instr → Layout
  | .andPred d a b => .f3 "and.pred" .pred d a b
  | .andB16 d a b => .f3 "and.b16" .w16 d a b
  | .andB32 d a b => .f3 "and.b32" .w32 d a b
  | .andB64 d a b => .f3 "and.b64" .w64 d a b
  | .orPred d a b => .f3 "or.pred" .pred d a b
  | .orB16 d a b => .f3 "or.b16" .w16 d a b
  | .orB32 d a b => .f3 "or.b32" .w32 d a b
  | .orB64 d a b => .f3 "or.b64" .w64 d a b
  | .xorPred d a b => .f3 "xor.pred" .pred d a b
  | .xorB16 d a b => .f3 "xor.b16" .w16 d a b
  | .xorB32 d a b => .f3 "xor.b32" .w32 d a b
  | .xorB64 d a b => .f3 "xor.b64" .w64 d a b
  | .notPred d a => .f2 "not.pred" .pred d a
  | .notB16 d a => .f2 "not.b16" .w16 d a
  | .notB32 d a => .f2 "not.b32" .w32 d a
  | .notB64 d a => .f2 "not.b64" .w64 d a
  | .cnotB16 d a => .f2 "cnot.b16" .w16 d a
  | .cnotB32 d a => .f2 "cnot.b32" .w32 d a
  | .cnotB64 d a => .f2 "cnot.b64" .w64 d a
  | .lop3B32 d a b c immLut => .fl "lop3.b32" d a b c immLut
  | .lop3OrB32 d p a b c immLut q => .flb "lop3.or.b32" d p a b c immLut q
  | .lop3AndB32 d p a b c immLut q => .flb "lop3.and.b32" d p a b c immLut q
  | .shfLClampB32 d a b c => .fs "shf.l.clamp.b32" d a b c
  | .shfLWrapB32 d a b c => .fs "shf.l.wrap.b32" d a b c
  | .shfRClampB32 d a b c => .fs "shf.r.clamp.b32" d a b c
  | .shfRWrapB32 d a b c => .fs "shf.r.wrap.b32" d a b c
  | .shlB16 d a b => .f3Shift "shl.b16" .w16 d a b
  | .shlB32 d a b => .f3Shift "shl.b32" .w32 d a b
  | .shlB64 d a b => .f3Shift "shl.b64" .w64 d a b
  | .shrB16 d a b => .f3Shift "shr.b16" .w16 d a b
  | .shrB32 d a b => .f3Shift "shr.b32" .w32 d a b
  | .shrB64 d a b => .f3Shift "shr.b64" .w64 d a b
  | .shrU16 d a b => .f3Shift "shr.u16" .w16 d a b
  | .shrU32 d a b => .f3Shift "shr.u32" .w32 d a b
  | .shrU64 d a b => .f3Shift "shr.u64" .w64 d a b
  | .shrS16 d a b => .f3Shift "shr.s16" .w16 d a b
  | .shrS32 d a b => .f3Shift "shr.s32" .w32 d a b
  | .shrS64 d a b => .f3Shift "shr.s64" .w64 d a b

/-- The mnemonic of a form, as spec/opcode_table.json spells it. -/
def Instr.mnemonic (i : Instr) : String :=
  match i.layout with
  | .f2 m _ _ _ => m
  | .f3 m _ _ _ _ => m
  | .f3Shift m _ _ _ _ => m
  | .fl m _ _ _ _ _ => m
  | .flb m _ _ _ _ _ _ _ => m
  | .fs m _ _ _ _ => m

/-- The source operands with the class of each position, in the order they are read: a, b, c, q (R34, R252). -/
def Instr.reads (i : Instr) : List (Width × Src) :=
  match i.layout with
  | .f2 _ w _ a => [(w, a)]
  | .f3 _ w _ a b => [(w, a), (w, b)]
  | .f3Shift _ w _ a b => [(w, a), (.w32, b)]
  | .fl _ _ a b c _ => [(.w32, a), (.w32, b), (.w32, c)]
  | .flb _ _ _ a b c _ q => [(.w32, a), (.w32, b), (.w32, c), (.pred, q)]
  | .fs _ _ a b c => [(.w32, a), (.w32, b), (.w32, c)]

/-- The destination registers with the class of each position (R34); the sink is none. -/
def Instr.writes (i : Instr) : List (Width × RegName) :=
  match i.layout with
  | .f2 _ w d _ => [(w, d)]
  | .f3 _ w d _ _ => [(w, d)]
  | .f3Shift _ w d _ _ => [(w, d)]
  | .fl _ d _ _ _ _ => [(.w32, d)]
  | .flb _ (.reg d) p _ _ _ _ _ => [(.w32, d), (.pred, p)]
  | .flb _ .sink p _ _ _ _ _ => [(.pred, p)]
  | .fs _ d _ _ _ => [(.w32, d)]

/-- The table constant of `lop3` (R88). -/
def Instr.lut? (i : Instr) : Option Nat :=
  match i.layout with
  | .fl _ _ _ _ _ immLut => some immLut
  | .flb _ _ _ _ _ _ immLut _ => some immLut
  | .f2 .. => none
  | .f3 .. => none
  | .f3Shift .. => none
  | .fs .. => none

/-- What the form requires (R6, R7). -/
def Instr.gate (i : Instr) : Gate :=
  match i.layout with
  | .f2 .. => Config.gateBase
  | .f3 .. => Config.gateBase
  | .f3Shift .. => Config.gateBase
  | .fl .. => Config.gateLop3
  | .flb .. => Config.gateLop3Bool
  | .fs .. => Config.gateShf

/-! ## The checks -/

/-- R109: `ptx_version` and `sm_target` meet a requirement. -/
def Params.admits (p : Params) (g : Gate) : Bool :=
  p.ptxVersion.atLeast g.version && decide (g.target ≤ p.smTarget)

/-- A register name at a position of class `w` (R84, R104 to R106). -/
def Params.checkReg (p : Params) (w : Width) (r : RegName) : Option IllFormed :=
  if r = ['_'] then some .sinkMisuse
  else if isRegName r = false then some .undeclaredRegister
  else match p.decl.classOf r with
    | none => some .undeclaredRegister
    | some w' => if w' = w then none else some .widthMismatch

/-- A source operand at a position of class `w` (R85, R87, R107): a literal must fit, and no predicate literal exists. -/
def Params.checkSrc (p : Params) (w : Width) : Src → Option IllFormed
  | .reg r => p.checkReg w r
  | .imm v => if w = .pred then some .literalMisuse else if v < 2 ^ w.bits then none else some .literalMisuse

/-- The destinations in the order written; the first that fails is reported. -/
def Params.checkWrites (p : Params) : List (Width × RegName) → Option IllFormed
  | [] => none
  | (w, d) :: rest => match p.checkReg w d with
    | some e => some e
    | none => p.checkWrites rest

/-- The sources in the order written; the first that fails is reported. -/
def Params.checkReads (p : Params) : List (Width × Src) → Option IllFormed
  | [] => none
  | (w, o) :: rest => match p.checkSrc w o with
    | some e => some e
    | none => p.checkReads rest

/-- R88, R108: `immLut` is at most 255. -/
def checkLut : Option Nat → Option IllFormed
  | none => none
  | some v => if v < 256 then none else some .badImmLut

/-- All checks on one term; none says that it is well formed under the parameters. The order in which a failing check is
reported is the model's (notes/assumptions/7.md). -/
def Instr.check (p : Params) (i : Instr) : Option IllFormed :=
  if p.admits i.gate = false then some .versionOrTarget
  else match p.checkWrites i.writes with
    | some e => some e
    | none => match p.checkReads i.reads with
      | some e => some e
      | none => checkLut i.lut?

/-- The statements of a program, checked in order: the first failing check, or none (R99). -/
def Params.checkAll (p : Params) : List Instr → Option IllFormed
  | [] => none
  | i :: rest => match i.check p with
    | some e => some e
    | none => p.checkAll rest

/-- `i` is well formed under the parameters `p` (R112). -/
abbrev Instr.WellFormed (p : Params) (i : Instr) : Prop :=
  i.check p = none

end Sys2Proof
end

