-- ==== Sys2Proof/Machine/State.lean ====
section
/-! DEFINITION. The machine's state (spec/10_state.md R31, R33, R40, R43, R46), the reasons a step can stop, and the state
before any program is loaded. -/

namespace Sys2Proof.Machine

/-- The value of a register: an unsigned number below `2 ^ W` for its width class `W` (R12, R31, R33). -/
inductive Value where
  | pred (v : BitVec 1)
  | b16 (v : BitVec 16)
  | b32 (v : BitVec 32)
  | b64 (v : BitVec 64)
deriving DecidableEq, Repr

/-- The register map `x` of R46, as a list of the registers that hold a value, in the strict order of `nameLt` (Ops.lean).
A register that is not listed holds no value (R31), which is not zero and is not any other number (R46). Keeping the list
in order makes equal maps equal data. -/
abbrev RegFile := List (RegName × Value)

/-- The faults. There is one (R251, D19). -/
inductive Fault where
  /-- `UnwrittenRegisterRead(i, r)` of R251: the statement at index `i` read the register `r`, which holds no value.
  Raised by every form for every register source operand; it stands in the state from then on (R43), and `step` answers
  it there, since such a state has no further step. The spec states the stop: R18 and R251 raise it at the read, R253 ends the
run ("the run simply stops"), and R46 forbids a value in its place. Safe: the machine stops where the hardware may go on
(D5). -/
  | unwrittenRegisterRead (index : Nat) (name : RegName)
deriving DecidableEq, Repr

/-- Why a step is refused: there is nothing to execute. -/
inductive Refusal where
  /-- An instruction without a meaning. No arm of `exec` answers it. Safe. -/
  | notModelled (mnemonic : String)
  /-- The program is ill formed and has no run (R23, R99): the first failing check. Answered by `step`. Safe: nothing is
  claimed of such a program. -/
  | illFormed (reason : IllFormed)
  /-- The run is over: `pc` is the number of statements and no fault is set, the finished state of R285. Answered by
  `step`; it is the good end of a run and no failure. Safe. -/
  | finished
  /-- `pc` is beyond the end of the program. No run reaches such a state (R41). Answered by `step`. Safe. -/
  | pcOutOfProgram
deriving DecidableEq, Repr

/-- The whole state: the parameters of the run, which no instruction changes (R42), and the triple of R46. -/
structure State where
  /-- Program text, `RegDecl`, `ptx_version`, `sm_target` (R6, R7, R9, R42). -/
  params : Params
  /-- `x`: the registers and their values (R31, R33, R46). -/
  regs : RegFile
  /-- The statement counter, a natural number (R40). -/
  pc : Nat
  /-- The fault mark (R43). -/
  fault : Option Fault
deriving DecidableEq, Repr

/-- Before a program is loaded: `pc` 0 and no fault (R46), the parameters at their defaults (R6, R7), no program and no
declared register, so that no register is without a value (notes/assumptions/1.md, 3.md). -/
def State.reset : State :=
  { params := { program := [], decl := [], ptxVersion := Config.defaultPtxVersion, smTarget := Config.defaultSmTarget }
    regs := []
    pc := 0
    fault := none }

end Sys2Proof.Machine
end

