-- ==== Sys2Proof/Machine/Ops.lean ====
section
/-! DEFINITION. The named operations on the state: the register map (spec/10_state.md R31, R46), reading and writing a
register (spec/00_scope.md R18, R19), moving past a statement (R41), and raising the fault
(spec/60_exceptions.md R251, R253). No operation returns from a fault, because nothing does (R254). -/

namespace Sys2Proof.Machine

/-! ## Values and width classes -/

/-- The value of class `w` with the given bits. -/
def Value.ofBits : (w : Width) → BitVec w.bits → Value
  | .pred, v => .pred v
  | .w16, v => .b16 v
  | .w32, v => .b32 v
  | .w64, v => .b64 v

/-- The bits of a value read at class `w`; none where the value is of another class. -/
def Value.bitsAt : (w : Width) → Value → Option (BitVec w.bits)
  | .pred, .pred v => some v
  | .w16, .b16 v => some v
  | .w32, .b32 v => some v
  | .w64, .b64 v => some v
  | _, _ => none

/-- The class of a value. -/
def Value.width : Value → Width
  | .pred _ => .pred
  | .b16 _ => .w16
  | .b32 _ => .w32
  | .b64 _ => .w64

/-! ## The register map -/

/-- The order of register names in the map: by their characters. It only fixes one list for each map. -/
def nameLt : RegName → RegName → Bool
  | _, [] => false
  | [], _ :: _ => true
  | a :: as, b :: bs => decide (a.toNat < b.toNat) || (decide (a = b) && nameLt as bs)

/-- The value a register holds, or none if it holds no value (R31). -/
def RegFile.get : RegFile → RegName → Option Value
  | [], _ => none
  | (k, v) :: rest, r => if k = r then some v else RegFile.get rest r

/-- The map with one register's value replaced (R19). -/
def RegFile.set : RegFile → RegName → Value → RegFile
  | [], r, v => [(r, v)]
  | (k, u) :: rest, r, v =>
    if k = r then (r, v) :: rest
    else if nameLt r k then (r, v) :: (k, u) :: rest
    else (k, u) :: RegFile.set rest r v

/-- Every name of the map stands after `r`. -/
def RegFile.above (r : RegName) : RegFile → Bool
  | [] => true
  | (k, _) :: rest => nameLt r k && RegFile.above r rest

/-- The canonical form: the names rise strictly, so that each name has at most one entry. -/
def RegFile.wf : RegFile → Bool
  | [] => true
  | (k, _) :: rest => RegFile.above k rest && RegFile.wf rest

/-! ## Registers of the state -/

/-- `x[r]` read at class `w` (R18): none if the register holds no value of that class. -/
def State.readReg (w : Width) (r : RegName) (s : State) : Option (BitVec w.bits) :=
  match s.regs.get r with
  | some v => v.bitsAt w
  | none => none

/-- `x[r] <- v` for a value of class `w` (R19). -/
def State.writeReg (w : Width) (r : RegName) (v : BitVec w.bits) (s : State) : State :=
  { s with regs := s.regs.set r (Value.ofBits w v) }

/-- `pc <- pc + 1` (R20, R41). -/
def State.advance (s : State) : State :=
  { s with pc := s.pc + 1 }

/-! ## Taking the fault -/

/-- `raise UnwrittenRegisterRead(pc, r)` (R18, R22, R251, R253): no destination is written, `pc` keeps the index of the statement, and
the fault mark is set. There is no handler and nothing is saved. -/
def State.raiseUnwrittenRegisterRead (r : RegName) (s : State) : State :=
  { s with fault := some (.unwrittenRegisterRead s.pc r) }

end Sys2Proof.Machine
end

