-- ==== Sys2Proof/Machine/Operands.lean ====
section
/-! DEFINITION. The operand forms (spec/00_scope.md R18, R19; spec/30_encoding.md R85 to R89, R96): the value of a source
operand, the shift amounts, the write to `d` of `d|p`, and the reading of the operands of a statement one after another
(spec/60_exceptions.md R251, R252). -/

namespace Sys2Proof.Machine

/-- `val(o)` at a position of class `w` (R18): the number of a literal, or the value of a register; where the register
holds no value, its name. -/
def State.operand (w : Width) (o : Src) (s : State) : Except RegName (BitVec w.bits) :=
  match o with
  | .imm v => .ok (BitVec.ofNat w.bits v)
  | .reg r => match s.readReg w r with
    | some v => .ok v
    | none => .error r

/-- Reads one source operand and goes on with its value, or raises the fault for it (R251). A statement reads its operands
by one such reading inside another, so that they are read in order and the first without a value is reported (R252). -/
def reading (w : Width) (o : Src) (s : State)
    (go : BitVec w.bits → Host.Outcome State Fault Refusal) : Host.Outcome State Fault Refusal :=
  match s.operand w o with
  | .ok v => go v
  | .error r => .next (s.raiseUnwrittenRegisterRead r)

/-- The write to the `d` part of `d|p`: the sink discards the value (R19, R96). -/
def State.writeDstSink (w : Width) (d : DstSink) (v : BitVec w.bits) (s : State) : State :=
  match d with
  | .reg r => s.writeReg w r v
  | .sink => s

/-- The amount of `shl` and `shr` (R220, R230): the unsigned 32-bit `b`, clamped to the width `n`. -/
def clampAmount (n : Nat) (b : BitVec 32) : Nat :=
  min b.toNat n

/-- The amount of `shf` in `.wrap` mode (R200): `c & 0x1f`. -/
def wrapAmount (c : BitVec 32) : Nat :=
  (c &&& 0x1f#32).toNat

end Sys2Proof.Machine
end

