-- ==== Sys2Proof/Machine/Funnel.lean ====
section
/-! DEFINITION. `shf`, the funnel shift (spec/46_shf.md R200 to R205). -/

namespace Sys2Proof.Machine

/-- `shl_64({b, a}, n)[63:32]` (R201): `b` is the high word. -/
def funnelLeft (va vb : BitVec 32) (n : Nat) : BitVec 32 :=
  ((vb ++ va : BitVec 64) <<< n).extractLsb' 32 32

/-- `lshr_64({b, a}, n)[31:0]` (R201). -/
def funnelRight (va vb : BitVec 32) (n : Nat) : BitVec 32 :=
  ((vb ++ va : BitVec 64) >>> n).extractLsb' 0 32

/-- Format FS: read `a`, `b`, `c`; the amount is `c` clamped or wrapped; write `d`, move on. -/
def funnel (amount : BitVec 32 → Nat) (shift : BitVec 32 → BitVec 32 → Nat → BitVec 32)
    (d : RegName) (a b c : Src) (s : State) : Host.Outcome State Fault Refusal :=
  reading .w32 a s fun va =>
    reading .w32 b s fun vb =>
      reading .w32 c s fun vc =>
        .next ((s.writeReg .w32 d (shift va vb (amount vc))).advance)

/-- `shf.l.clamp.b32 d, a, b, c;` (R202). -/
def execShfLClampB32 (d : RegName) (a b c : Src) (s : State) : Host.Outcome State Fault Refusal :=
  funnel (clampAmount 32) funnelLeft d a b c s

/-- `shf.l.wrap.b32 d, a, b, c;` (R203). -/
def execShfLWrapB32 (d : RegName) (a b c : Src) (s : State) : Host.Outcome State Fault Refusal :=
  funnel wrapAmount funnelLeft d a b c s

/-- `shf.r.clamp.b32 d, a, b, c;` (R204). -/
def execShfRClampB32 (d : RegName) (a b c : Src) (s : State) : Host.Outcome State Fault Refusal :=
  funnel (clampAmount 32) funnelRight d a b c s

/-- `shf.r.wrap.b32 d, a, b, c;` (R205). -/
def execShfRWrapB32 (d : RegName) (a b c : Src) (s : State) : Host.Outcome State Fault Refusal :=
  funnel wrapAmount funnelRight d a b c s

end Sys2Proof.Machine
end

