-- ==== Sys2Proof/Machine/Flags.lean ====
section
/-! DEFINITION. The truth values the instructions compute. The machine has no flags and no condition codes
(spec/10_state.md R35); the only Booleans are predicate values, one bit each (spec/00_scope.md R16), which `lop3` with
`.BoolOp` computes (spec/45_lop3.md R186). -/

namespace Sys2Proof.Machine

/-- `(r != 0) ? 1 : 0` as a predicate, over all bits of the value (R184, R186). -/
def nonZero {n : Nat} (r : BitVec n) : BitVec 1 :=
  if r = 0 then 0#1 else 1#1

/-- `(a == 0) ? 1 : 0` as a value of the operand's own width (R170). -/
def isZero {n : Nat} (a : BitVec n) : BitVec n :=
  if a = 0 then BitVec.ofNat n 1 else BitVec.ofNat n 0

/-- `.or`: logical or of two predicates (R186). -/
def boolOr (x q : BitVec 1) : BitVec 1 :=
  x ||| q

/-- `.and`: logical and of two predicates (R186). -/
def boolAnd (x q : BitVec 1) : BitVec 1 :=
  x &&& q

end Sys2Proof.Machine
end

