-- ==== Sys2Proof/Machine/Logic.lean ====
section
/-! DEFINITION. `and`, `or`, `xor`, `not` and `cnot` (spec/40_and.md to spec/44_cnot.md). -/

namespace Sys2Proof.Machine

/-- Format F3 with both sources of the class of the type suffix: read `a`, read `b`, write `d`, move on. -/
def logic2 (w : Width) (f : BitVec w.bits → BitVec w.bits → BitVec w.bits)
    (d : RegName) (a b : Src) (s : State) : Host.Outcome State Fault Refusal :=
  reading w a s fun va =>
    reading w b s fun vb =>
      .next ((s.writeReg w d (f va vb)).advance)

/-- Format F2: read `a`, write `d`, move on. -/
def logic1 (w : Width) (f : BitVec w.bits → BitVec w.bits)
    (d : RegName) (a : Src) (s : State) : Host.Outcome State Fault Refusal :=
  reading w a s fun va =>
    .next ((s.writeReg w d (f va)).advance)

/-! ## `and` (R130) -/

/-- `and.pred d, a, b;` (R131). -/
def execAndPred (d : RegName) (a b : Src) (s : State) : Host.Outcome State Fault Refusal :=
  logic2 .pred (fun va vb => va &&& vb) d a b s

/-- `and.b16 d, a, b;` (R132). -/
def execAndB16 (d : RegName) (a b : Src) (s : State) : Host.Outcome State Fault Refusal :=
  logic2 .w16 (fun va vb => va &&& vb) d a b s

/-- `and.b32 d, a, b;` (R133). -/
def execAndB32 (d : RegName) (a b : Src) (s : State) : Host.Outcome State Fault Refusal :=
  logic2 .w32 (fun va vb => va &&& vb) d a b s

/-- `and.b64 d, a, b;` (R134). -/
def execAndB64 (d : RegName) (a b : Src) (s : State) : Host.Outcome State Fault Refusal :=
  logic2 .w64 (fun va vb => va &&& vb) d a b s

/-! ## `or` (R140) -/

/-- `or.pred d, a, b;` (R141). -/
def execOrPred (d : RegName) (a b : Src) (s : State) : Host.Outcome State Fault Refusal :=
  logic2 .pred (fun va vb => va ||| vb) d a b s

/-- `or.b16 d, a, b;` (R142). -/
def execOrB16 (d : RegName) (a b : Src) (s : State) : Host.Outcome State Fault Refusal :=
  logic2 .w16 (fun va vb => va ||| vb) d a b s

/-- `or.b32 d, a, b;` (R143). -/
def execOrB32 (d : RegName) (a b : Src) (s : State) : Host.Outcome State Fault Refusal :=
  logic2 .w32 (fun va vb => va ||| vb) d a b s

/-- `or.b64 d, a, b;` (R144). -/
def execOrB64 (d : RegName) (a b : Src) (s : State) : Host.Outcome State Fault Refusal :=
  logic2 .w64 (fun va vb => va ||| vb) d a b s

/-! ## `xor` (R150) -/

/-- `xor.pred d, a, b;` (R151). -/
def execXorPred (d : RegName) (a b : Src) (s : State) : Host.Outcome State Fault Refusal :=
  logic2 .pred (fun va vb => va ^^^ vb) d a b s

/-- `xor.b16 d, a, b;` (R152). -/
def execXorB16 (d : RegName) (a b : Src) (s : State) : Host.Outcome State Fault Refusal :=
  logic2 .w16 (fun va vb => va ^^^ vb) d a b s

/-- `xor.b32 d, a, b;` (R153). -/
def execXorB32 (d : RegName) (a b : Src) (s : State) : Host.Outcome State Fault Refusal :=
  logic2 .w32 (fun va vb => va ^^^ vb) d a b s

/-- `xor.b64 d, a, b;` (R154). -/
def execXorB64 (d : RegName) (a b : Src) (s : State) : Host.Outcome State Fault Refusal :=
  logic2 .w64 (fun va vb => va ^^^ vb) d a b s

/-! ## `not` (R160) -/

/-- `not.pred d, a;` (R161). -/
def execNotPred (d : RegName) (a : Src) (s : State) : Host.Outcome State Fault Refusal :=
  logic1 .pred (fun va => ~~~va) d a s

/-- `not.b16 d, a;` (R162). -/
def execNotB16 (d : RegName) (a : Src) (s : State) : Host.Outcome State Fault Refusal :=
  logic1 .w16 (fun va => ~~~va) d a s

/-- `not.b32 d, a;` (R163). -/
def execNotB32 (d : RegName) (a : Src) (s : State) : Host.Outcome State Fault Refusal :=
  logic1 .w32 (fun va => ~~~va) d a s

/-- `not.b64 d, a;` (R164). -/
def execNotB64 (d : RegName) (a : Src) (s : State) : Host.Outcome State Fault Refusal :=
  logic1 .w64 (fun va => ~~~va) d a s

/-! ## `cnot` (R170) -/

/-- `cnot.b16 d, a;` (R171). -/
def execCnotB16 (d : RegName) (a : Src) (s : State) : Host.Outcome State Fault Refusal :=
  logic1 .w16 isZero d a s

/-- `cnot.b32 d, a;` (R172). -/
def execCnotB32 (d : RegName) (a : Src) (s : State) : Host.Outcome State Fault Refusal :=
  logic1 .w32 isZero d a s

/-- `cnot.b64 d, a;` (R173). -/
def execCnotB64 (d : RegName) (a : Src) (s : State) : Host.Outcome State Fault Refusal :=
  logic1 .w64 isZero d a s

end Sys2Proof.Machine
end

