-- ==== Sys2Proof/Machine/Lop3.lean ====
section
/-! DEFINITION. `lop3` (spec/45_lop3.md R180 to R187). -/

namespace Sys2Proof.Machine

/-- One bit of the result (R181): the table entry whose number has the bit of `a` at weight 4, the bit of `b` at weight 2
and the bit of `c` at weight 1. -/
def lop3Bit (lut : BitVec 8) (x y z : Bool) : Bool :=
  lut.getLsbD (4 * x.toNat + 2 * y.toNat + z.toNat)

/-- The result's bits below position `n` (R182, R183: `for i in 0 .. 31: r[i] <- ...`). -/
def lop3Bits (lut : BitVec 8) (va vb vc : BitVec 32) : Nat → BitVec 32
  | 0 => 0#32
  | i + 1 =>
    lop3Bits lut va vb vc i |||
      (BitVec.ofBool (lop3Bit lut (va.getLsbD i) (vb.getLsbD i) (vc.getLsbD i))).setWidth 32 <<< i

/-- `F(a, b, c)` for the function `F` of a table (R182): all 32 positions. -/
def lop3Table (lut : BitVec 8) (va vb vc : BitVec 32) : BitVec 32 :=
  lop3Bits lut va vb vc 32

/-- Format FLB (R184 to R186): read `a`, `b`, `c`, `q`; the result and the predicate are both computed before either is
written (R291); then `d` unless it is the sink, then `p`. -/
def lop3Bool (op : BitVec 1 → BitVec 1 → BitVec 1) (d : DstSink) (p : RegName) (a b c : Src) (immLut : Nat) (q : Src)
    (s : State) : Host.Outcome State Fault Refusal :=
  reading .w32 a s fun va =>
    reading .w32 b s fun vb =>
      reading .w32 c s fun vc =>
        reading .pred q s fun vq =>
          let r := lop3Table (BitVec.ofNat 8 immLut) va vb vc
          .next (((s.writeDstSink .w32 d r).writeReg .pred p (op (nonZero r) vq)).advance)

/-- `lop3.b32 d, a, b, c, immLut;` (R183). -/
def execLop3B32 (d : RegName) (a b c : Src) (immLut : Nat) (s : State) : Host.Outcome State Fault Refusal :=
  reading .w32 a s fun va =>
    reading .w32 b s fun vb =>
      reading .w32 c s fun vc =>
        .next ((s.writeReg .w32 d (lop3Table (BitVec.ofNat 8 immLut) va vb vc)).advance)

/-- `lop3.or.b32 d|p, a, b, c, immLut, q;` (R184). -/
def execLop3OrB32 (d : DstSink) (p : RegName) (a b c : Src) (immLut : Nat) (q : Src)
    (s : State) : Host.Outcome State Fault Refusal :=
  lop3Bool boolOr d p a b c immLut q s

/-- `lop3.and.b32 d|p, a, b, c, immLut, q;` (R185). -/
def execLop3AndB32 (d : DstSink) (p : RegName) (a b c : Src) (immLut : Nat) (q : Src)
    (s : State) : Host.Outcome State Fault Refusal :=
  lop3Bool boolAnd d p a b c immLut q s

end Sys2Proof.Machine
end

