-- ==== Sys2Proof/Machine/Shift.lean ====
section
/-! DEFINITION. `shl` and `shr` (spec/47_shl.md, spec/48_shr.md). The shifts of a `BitVec` by a natural number are the total
shifts of spec/00_scope.md R15. -/

namespace Sys2Proof.Machine

/-- `shl_N(a, min(b, N))` (R220): zero bits enter on the right. -/
def shlBits (w : Width) (va : BitVec w.bits) (vb : BitVec 32) : BitVec w.bits :=
  va <<< clampAmount w.bits vb

/-- `lshr_N(a, min(b, N))` (R230, R231): zero bits enter on the left. -/
def shrZeroBits (w : Width) (va : BitVec w.bits) (vb : BitVec 32) : BitVec w.bits :=
  va >>> clampAmount w.bits vb

/-- `ashr_N(a, min(b, N))` (R230, R231): copies of the sign bit enter on the left. -/
def shrSignBits (w : Width) (va : BitVec w.bits) (vb : BitVec 32) : BitVec w.bits :=
  va.sshiftRight (clampAmount w.bits vb)

/-- Format F3 of `shl` and `shr`: read `a` at the class of the type suffix, read `b` at class 32, write `d`, move on. -/
def shift (w : Width) (f : BitVec w.bits → BitVec 32 → BitVec w.bits)
    (d : RegName) (a b : Src) (s : State) : Host.Outcome State Fault Refusal :=
  reading w a s fun va =>
    reading .w32 b s fun vb =>
      .next ((s.writeReg w d (f va vb)).advance)

/-! ## `shl` (R220) -/

/-- `shl.b16 d, a, b;` (R221). -/
def execShlB16 (d : RegName) (a b : Src) (s : State) : Host.Outcome State Fault Refusal :=
  shift .w16 (shlBits .w16) d a b s

/-- `shl.b32 d, a, b;` (R222). -/
def execShlB32 (d : RegName) (a b : Src) (s : State) : Host.Outcome State Fault Refusal :=
  shift .w32 (shlBits .w32) d a b s

/-- `shl.b64 d, a, b;` (R223). -/
def execShlB64 (d : RegName) (a b : Src) (s : State) : Host.Outcome State Fault Refusal :=
  shift .w64 (shlBits .w64) d a b s

/-! ## `shr` (R230, R231): zero fill for `.bN` and `.uN`, sign fill for `.sN` -/

/-- `shr.b16 d, a, b;` (R232). -/
def execShrB16 (d : RegName) (a b : Src) (s : State) : Host.Outcome State Fault Refusal :=
  shift .w16 (shrZeroBits .w16) d a b s

/-- `shr.b32 d, a, b;` (R233). -/
def execShrB32 (d : RegName) (a b : Src) (s : State) : Host.Outcome State Fault Refusal :=
  shift .w32 (shrZeroBits .w32) d a b s

/-- `shr.b64 d, a, b;` (R234). -/
def execShrB64 (d : RegName) (a b : Src) (s : State) : Host.Outcome State Fault Refusal :=
  shift .w64 (shrZeroBits .w64) d a b s

/-- `shr.u16 d, a, b;` (R235). -/
def execShrU16 (d : RegName) (a b : Src) (s : State) : Host.Outcome State Fault Refusal :=
  shift .w16 (shrZeroBits .w16) d a b s

/-- `shr.u32 d, a, b;` (R236). -/
def execShrU32 (d : RegName) (a b : Src) (s : State) : Host.Outcome State Fault Refusal :=
  shift .w32 (shrZeroBits .w32) d a b s

/-- `shr.u64 d, a, b;` (R237). -/
def execShrU64 (d : RegName) (a b : Src) (s : State) : Host.Outcome State Fault Refusal :=
  shift .w64 (shrZeroBits .w64) d a b s

/-- `shr.s16 d, a, b;` (R238). -/
def execShrS16 (d : RegName) (a b : Src) (s : State) : Host.Outcome State Fault Refusal :=
  shift .w16 (shrSignBits .w16) d a b s

/-- `shr.s32 d, a, b;` (R239). -/
def execShrS32 (d : RegName) (a b : Src) (s : State) : Host.Outcome State Fault Refusal :=
  shift .w32 (shrSignBits .w32) d a b s

/-- `shr.s64 d, a, b;` (R240). -/
def execShrS64 (d : RegName) (a b : Src) (s : State) : Host.Outcome State Fault Refusal :=
  shift .w64 (shrSignBits .w64) d a b s

end Sys2Proof.Machine
end

