-- ==== Sys2Proof/Machine/Dispatch.lean ====
section
/-! DEFINITION. The meaning of each form, one arm per constructor of `Instr`. -/

namespace Sys2Proof.Machine

def exec (i : Instr) (s : State) : Host.Outcome State Fault Refusal :=
  match i with
  | .andPred d a b => Sys2Proof.Machine.execAndPred d a b s
  | .andB16 d a b => Sys2Proof.Machine.execAndB16 d a b s
  | .andB32 d a b => Sys2Proof.Machine.execAndB32 d a b s
  | .andB64 d a b => Sys2Proof.Machine.execAndB64 d a b s
  | .orPred d a b => Sys2Proof.Machine.execOrPred d a b s
  | .orB16 d a b => Sys2Proof.Machine.execOrB16 d a b s
  | .orB32 d a b => Sys2Proof.Machine.execOrB32 d a b s
  | .orB64 d a b => Sys2Proof.Machine.execOrB64 d a b s
  | .xorPred d a b => Sys2Proof.Machine.execXorPred d a b s
  | .xorB16 d a b => Sys2Proof.Machine.execXorB16 d a b s
  | .xorB32 d a b => Sys2Proof.Machine.execXorB32 d a b s
  | .xorB64 d a b => Sys2Proof.Machine.execXorB64 d a b s
  | .notPred d a => Sys2Proof.Machine.execNotPred d a s
  | .notB16 d a => Sys2Proof.Machine.execNotB16 d a s
  | .notB32 d a => Sys2Proof.Machine.execNotB32 d a s
  | .notB64 d a => Sys2Proof.Machine.execNotB64 d a s
  | .cnotB16 d a => Sys2Proof.Machine.execCnotB16 d a s
  | .cnotB32 d a => Sys2Proof.Machine.execCnotB32 d a s
  | .cnotB64 d a => Sys2Proof.Machine.execCnotB64 d a s
  | .lop3B32 d a b c immLut => Sys2Proof.Machine.execLop3B32 d a b c immLut s
  | .lop3OrB32 d p a b c immLut q => Sys2Proof.Machine.execLop3OrB32 d p a b c immLut q s
  | .lop3AndB32 d p a b c immLut q => Sys2Proof.Machine.execLop3AndB32 d p a b c immLut q s
  | .shfLClampB32 d a b c => Sys2Proof.Machine.execShfLClampB32 d a b c s
  | .shfLWrapB32 d a b c => Sys2Proof.Machine.execShfLWrapB32 d a b c s
  | .shfRClampB32 d a b c => Sys2Proof.Machine.execShfRClampB32 d a b c s
  | .shfRWrapB32 d a b c => Sys2Proof.Machine.execShfRWrapB32 d a b c s
  | .shlB16 d a b => Sys2Proof.Machine.execShlB16 d a b s
  | .shlB32 d a b => Sys2Proof.Machine.execShlB32 d a b s
  | .shlB64 d a b => Sys2Proof.Machine.execShlB64 d a b s
  | .shrB16 d a b => Sys2Proof.Machine.execShrB16 d a b s
  | .shrB32 d a b => Sys2Proof.Machine.execShrB32 d a b s
  | .shrB64 d a b => Sys2Proof.Machine.execShrB64 d a b s
  | .shrU16 d a b => Sys2Proof.Machine.execShrU16 d a b s
  | .shrU32 d a b => Sys2Proof.Machine.execShrU32 d a b s
  | .shrU64 d a b => Sys2Proof.Machine.execShrU64 d a b s
  | .shrS16 d a b => Sys2Proof.Machine.execShrS16 d a b s
  | .shrS32 d a b => Sys2Proof.Machine.execShrS32 d a b s
  | .shrS64 d a b => Sys2Proof.Machine.execShrS64 d a b s

end Sys2Proof.Machine
end

