-- ==== Sys2Proof/Decode.lean ====
section
/-! DEFINITION. From program text to terms and back (spec/30_encoding.md R80 to R98): the tokens of the text, the operands,
the opcode map, statements and programs, total on any text and refusing by the names of R100 to R111; then the canonical
text of a term (R93), and the same over bytes and table words. -/

namespace Sys2Proof

/-! ## Tokens (R81, R94, D27) -/

/-- A token: a word (a mnemonic, a name or a numeral, with its dots), one of the marks the statement shape uses, or any
other character, which no statement of R81 holds. -/
inductive Tok where
  | word (cs : List Char)
  | comma
  | semi
  | bar
  | other (c : Char)
deriving DecidableEq, Repr

/-- White space (R93): space, tab, line feed, carriage return (notes/assumptions/9.md). -/
def isSpace (c : Char) : Bool :=
  c = ' ' || c = '\t' || c = '\n' || c = '\r'

/-- A character of a word: what mnemonics, register names and numerals are made of (R81, R86, R87). DESIGN CHOICE: the spec
does not list the operators of the constant expressions that R110 excludes, and the model takes `%`, which R86 gives to
names, for no operator even between numerals (notes/assumptions/7.md). -/
def isWordChar (c : Char) : Bool :=
  isLetter c || isDigit c || c = '_' || c = '$' || c = '%' || c = '.'

/-- Where the reader of the text stands: between tokens, in a word, after one `/`, or in a comment (R94). -/
inductive LexMode where
  | gap
  | inWord (cs : List Char)
  | slash
  | comment
deriving DecidableEq, Repr

/-- A character read between two tokens. -/
def lexStart (c : Char) : List Tok × LexMode :=
  if isWordChar c then ([], .inWord [c])
  else if isSpace c then ([], .gap)
  else if c = ',' then ([.comma], .gap)
  else if c = ';' then ([.semi], .gap)
  else if c = '|' then ([.bar], .gap)
  else if c = '/' then ([], .slash)
  else ([.other c], .gap)

/-- One character of the text: the tokens it completes, and where the reader stands after it. -/
def lexStep : LexMode → Char → List Tok × LexMode
  | .gap, c => lexStart c
  | .inWord cs, c => if isWordChar c then ([], .inWord (cs ++ [c])) else (.word cs :: (lexStart c).1, (lexStart c).2)
  | .slash, c => if c = '/' then ([], .comment) else (.other '/' :: (lexStart c).1, (lexStart c).2)
  | .comment, c => if c = '\n' then ([], .gap) else ([], .comment)

/-- The tokens that the end of the text completes. -/
def lexEnd : LexMode → List Tok
  | .gap => []
  | .inWord cs => [.word cs]
  | .slash => [.other '/']
  | .comment => []

/-- The tokens of a text read from a given standing. -/
def lexFrom : LexMode → List Char → List Tok
  | m, [] => lexEnd m
  | m, c :: cs => (lexStep m c).1 ++ lexFrom (lexStep m c).2 cs

/-- The tokens of a text. -/
def lex (text : List Char) : List Tok :=
  lexFrom .gap text

/-- The statements of a token list, each without its closing semicolon, and what follows the last semicolon. -/
def splitSemi : List Tok → List (List Tok) × List Tok
  | [] => ([], [])
  | .semi :: ts => ([] :: (splitSemi ts).1, (splitSemi ts).2)
  | t :: ts => match splitSemi ts with
    | ([], left) => ([], t :: left)
    | (s :: ss, left) => ((t :: s) :: ss, left)

/-- The token lists between the commas. -/
def splitComma : List Tok → List (List Tok)
  | [] => [[]]
  | .comma :: ts => [] :: splitComma ts
  | t :: ts => match splitComma ts with
    | [] => [[t]]
    | s :: ss => (t :: s) :: ss

/-! ## Numerals and operands (R85 to R88, R95 to R97) -/

/-- The value of a decimal digit. -/
def decDigit (c : Char) : Option Nat :=
  if isDigit c then some (c.toNat - 48) else none

/-- The value of a hexadecimal digit, in either case (R87). -/
def hexDigit (c : Char) : Option Nat :=
  if isDigit c then some (c.toNat - 48)
  else if 65 ≤ c.toNat ∧ c.toNat ≤ 70 then some (c.toNat - 55)
  else if 97 ≤ c.toNat ∧ c.toNat ≤ 102 then some (c.toNat - 87)
  else none

/-- Reads digits of a base onto the value read so far. -/
def readDigits (base : Nat) (digit : Char → Option Nat) : Nat → List Char → Option Nat
  | acc, [] => some acc
  | acc, c :: cs => match digit c with
    | some v => readDigits base digit (acc * base + v) cs
    | none => none

/-- R87: `0`, a decimal numeral without a leading zero, or `0x` and one or more hexadecimal digits. -/
def readNumeral : List Char → Option Nat
  | [] => none
  | ['0'] => some 0
  | '0' :: 'x' :: ds => if ds.isEmpty then none else readDigits 16 hexDigit 0 ds
  | '0' :: _ => none
  | ds => readDigits 10 decDigit 0 ds

/-- One part of an operand: a register name, a literal or the sink symbol. -/
inductive Atom where
  | reg (r : RegName)
  | lit (v : Nat)
  | sink
deriving DecidableEq, Repr

/-- An operand as written: one part, or a pair joined by a vertical bar (R97). -/
inductive Operand where
  | atom (a : Atom)
  | pair (d p : Atom)
deriving DecidableEq, Repr

/-- A word begins with a digit: it is a numeral or no operand at all. -/
def startsWithDigit : List Char → Bool
  | [] => false
  | c :: _ => isDigit c

/-- A word as an operand part: `_`, a numeral (R87), a register name (R86), or excluded syntax such as `%tid.x` (R110). -/
def readAtom (w : List Char) : Except IllFormed Atom :=
  if w = ['_'] then .ok .sink
  else if startsWithDigit w then
    match readNumeral w with
    | some v => .ok (.lit v)
    | none => .error .literalMisuse
  else if isRegName w then .ok (.reg w)
  else .error .excludedSyntax

/-- A character outside the statement shape. -/
def Tok.isOther : Tok → Bool
  | .other _ => true
  | _ => false

/-- How many vertical bars an operand holds. -/
def barCount (ts : List Tok) : Nat :=
  (ts.filter fun t => t = .bar).length

/-- The tokens of one operand that `hasExcluded` lets pass (R81, R97). What is not one word or two words joined by a bar
holds the sign of a numeral, a spelling R87 does not admit; or bars that no `d|p` has, a constant expression (R110); or it
lacks a comma or a bar (R111). -/
def readOperand : List Tok → Except IllFormed Operand
  | [.word w] => match readAtom w with
    | .ok a => .ok (.atom a)
    | .error e => .error e
  | [.word w, .bar, .word v] => match readAtom w, readAtom v with
    | .ok d, .ok p => .ok (.pair d p)
    | .error e, _ => .error e
    | .ok _, .error e => .error e
  | ts =>
    if ts.any Tok.isOther then .error .literalMisuse
    else if 2 ≤ barCount ts then .error .excludedSyntax
    else .error .badPunctuation

/-- All operands, in order; the first that cannot be read is reported. -/
def readOperands : List (List Tok) → Except IllFormed (List Operand)
  | [] => .ok []
  | ts :: rest => match readOperand ts with
    | .error e => .error e
    | .ok o => match readOperands rest with
      | .error e => .error e
      | .ok os => .ok (o :: os)

/-- The operands hold a character outside the statement shape (R110). Where a part of an operand starts (`start`: after the
mnemonic, a comma or a bar), a minus sign before a numeral is a sign and left to `readOperand`, which names it a literal that
R87 does not admit; anywhere else a minus sign makes a constant expression. -/
def excludedFrom (start : Bool) : List Tok → Bool
  | [] => false
  | .other c :: ts => match ts with
    | .word w :: rest => !(start && c = '-' && startsWithDigit w) || excludedFrom false rest
    | _ => true
  | .word _ :: ts => excludedFrom false ts
  | .comma :: ts => excludedFrom true ts
  | .bar :: ts => excludedFrom true ts
  | .semi :: ts => excludedFrom true ts

/-- The statement holds a character outside the statement shape (R110), in front of its mnemonic or among its operands. -/
def hasExcluded : List Tok → Bool
  | .word _ :: ts => excludedFrom true ts
  | ts => excludedFrom false ts

/-! ## The opcode map (R82, R90, R92) -/

/-- The five formats, each with the constructor of its form. -/
inductive Shape where
  | f2 (mk : RegName → Src → Instr)
  | f3 (mk : RegName → Src → Src → Instr)
  | fl (mk : RegName → Src → Src → Src → Nat → Instr)
  | flb (mk : DstSink → RegName → Src → Src → Src → Nat → Src → Instr)
  | fs (mk : RegName → Src → Src → Src → Instr)

/-- R92: the 38 mnemonics, each with its format and form. -/
def opcodeMap : List (String × Shape) :=
  [("and.pred", .f3 .andPred),
   ("and.b16", .f3 .andB16),
   ("and.b32", .f3 .andB32),
   ("and.b64", .f3 .andB64),
   ("or.pred", .f3 .orPred),
   ("or.b16", .f3 .orB16),
   ("or.b32", .f3 .orB32),
   ("or.b64", .f3 .orB64),
   ("xor.pred", .f3 .xorPred),
   ("xor.b16", .f3 .xorB16),
   ("xor.b32", .f3 .xorB32),
   ("xor.b64", .f3 .xorB64),
   ("not.pred", .f2 .notPred),
   ("not.b16", .f2 .notB16),
   ("not.b32", .f2 .notB32),
   ("not.b64", .f2 .notB64),
   ("cnot.b16", .f2 .cnotB16),
   ("cnot.b32", .f2 .cnotB32),
   ("cnot.b64", .f2 .cnotB64),
   ("lop3.b32", .fl .lop3B32),
   ("lop3.or.b32", .flb .lop3OrB32),
   ("lop3.and.b32", .flb .lop3AndB32),
   ("shf.l.clamp.b32", .fs .shfLClampB32),
   ("shf.l.wrap.b32", .fs .shfLWrapB32),
   ("shf.r.clamp.b32", .fs .shfRClampB32),
   ("shf.r.wrap.b32", .fs .shfRWrapB32),
   ("shl.b16", .f3 .shlB16),
   ("shl.b32", .f3 .shlB32),
   ("shl.b64", .f3 .shlB64),
   ("shr.b16", .f3 .shrB16),
   ("shr.b32", .f3 .shrB32),
   ("shr.b64", .f3 .shrB64),
   ("shr.u16", .f3 .shrU16),
   ("shr.u32", .f3 .shrU32),
   ("shr.u64", .f3 .shrU64),
   ("shr.s16", .f3 .shrS16),
   ("shr.s32", .f3 .shrS32),
   ("shr.s64", .f3 .shrS64)]

/-- The nine opcode names of R1. -/
def opcodeNames : List String :=
  ["and", "or", "xor", "not", "cnot", "lop3", "shf", "shl", "shr"]

/-- The form of a mnemonic in a map. -/
def findShape (w : List Char) : List (String × Shape) → Option Shape
  | [] => none
  | (m, sh) :: rest => if m.toList = w then some sh else findShape w rest

/-- A mnemonic as a word: its form, or the refusal R100 or R101. -/
def readMnemonic (w : List Char) : Except IllFormed Shape :=
  match findShape w opcodeMap with
  | some sh => .ok sh
  | none =>
    if opcodeNames.any (fun n => n.toList = w.takeWhile (fun c => c ≠ '.')) then .error .badQualifiers
    else .error .unknownOpcode

/-! ## Statements and programs -/

/-- An operand at a destination position: a register (R95, R103, R104). -/
def Operand.asDst : Operand → Except IllFormed RegName
  | .atom (.reg r) => .ok r
  | .atom (.lit _) => .error .badDestination
  | .atom .sink => .error .sinkMisuse
  | .pair _ _ => .error .operandCount

/-- Two parts joined by a bar where no `d|p` stands: with a literal in it a constant expression (R110), otherwise a `d|p`
out of its place (R102). -/
def misplacedPair : Atom → Atom → IllFormed
  | .lit _, _ => .excludedSyntax
  | _, .lit _ => .excludedSyntax
  | .reg _, _ => .operandCount
  | .sink, _ => .operandCount

/-- An operand at a source position: a register or a literal (R85, R104). -/
def Operand.asSrc : Operand → Except IllFormed Src
  | .atom (.reg r) => .ok (.reg r)
  | .atom (.lit v) => .ok (.imm v)
  | .atom .sink => .error .sinkMisuse
  | .pair d p => .error (misplacedPair d p)

/-- An operand at the `immLut` position: a literal (R88, R108). -/
def Operand.asLut : Operand → Except IllFormed Nat
  | .atom (.lit v) => .ok v
  | .atom (.reg _) => .error .badImmLut
  | .atom .sink => .error .sinkMisuse
  | .pair d p => .error (misplacedPair d p)

/-- An operand at the `d|p` position: a register or the sink, then a register (R96, R97, R102 to R104). -/
def Operand.asPair : Operand → Except IllFormed (DstSink × RegName)
  | .pair (.reg d) (.reg p) => .ok (.reg d, p)
  | .pair .sink (.reg p) => .ok (.sink, p)
  | .pair (.lit _) _ => .error .badDestination
  | .pair _ (.lit _) => .error .badDestination
  | .pair _ .sink => .error .sinkMisuse
  | .atom _ => .error .operandCount

/-- The term of a form and its operands; a wrong number of operands is R102. -/
def Shape.build : Shape → List Operand → Except IllFormed Instr
  | .f2 mk, [d, a] => do
    let d ← d.asDst
    let a ← a.asSrc
    .ok (mk d a)
  | .f3 mk, [d, a, b] => do
    let d ← d.asDst
    let a ← a.asSrc
    let b ← b.asSrc
    .ok (mk d a b)
  | .fl mk, [d, a, b, c, l] => do
    let d ← d.asDst
    let a ← a.asSrc
    let b ← b.asSrc
    let c ← c.asSrc
    let l ← l.asLut
    .ok (mk d a b c l)
  | .flb mk, [dp, a, b, c, l, q] => do
    let dp ← dp.asPair
    let a ← a.asSrc
    let b ← b.asSrc
    let c ← c.asSrc
    let l ← l.asLut
    let q ← q.asSrc
    .ok (mk dp.1 dp.2 a b c l q)
  | .fs mk, [d, a, b, c] => do
    let d ← d.asDst
    let a ← a.asSrc
    let b ← b.asSrc
    let c ← c.asSrc
    .ok (mk d a b c)
  | .f2 _, _ => .error .operandCount
  | .f3 _, _ => .error .operandCount
  | .fl _, _ => .error .operandCount
  | .flb _, _ => .error .operandCount
  | .fs _, _ => .error .operandCount

/-- The token lists of the operands: none where nothing follows the mnemonic. -/
def operandToks : List Tok → List (List Tok)
  | [] => []
  | t :: ts => splitComma (t :: ts)

/-- A word that begins with a dot is a directive (R110). -/
def isDirective : List Char → Bool
  | [] => false
  | c :: _ => c = '.'

/-- One statement, given as its tokens without the semicolon (R81). The order of the checks is the model's
(notes/assumptions/7.md); an empty statement has no opcode name (notes/assumptions/17.md). -/
def readStatement (ts : List Tok) : Except IllFormed Instr :=
  if hasExcluded ts then .error .excludedSyntax
  else match ts with
    | [] => .error .unknownOpcode
    | .word w :: rest =>
      if isDirective w then .error .excludedSyntax
      else do
        let sh ← readMnemonic w
        let os ← readOperands (operandToks rest)
        sh.build os
    | .comma :: _ => .error .badPunctuation
    | .semi :: _ => .error .badPunctuation
    | .bar :: _ => .error .badPunctuation
    | .other _ :: _ => .error .excludedSyntax

/-- All statements, in order; the first that cannot be read is reported. -/
def readStatements : List (List Tok) → Except IllFormed (List Instr)
  | [] => .ok []
  | ts :: rest => match readStatement ts with
    | .error e => .error e
    | .ok i => match readStatements rest with
      | .error e => .error e
      | .ok is => .ok (i :: is)

/-- The transcription of a program text into its terms (R80, R93): white space and comments do not count, every statement
ends with a semicolon (R81). -/
def transcribe (text : List Char) : Except IllFormed (List Instr) :=
  match readStatements (splitSemi (lex text)).1 with
  | .error e => .error e
  | .ok is => if (splitSemi (lex text)).2 = [] then .ok is else .error .badPunctuation

/-- The decoder: the text of exactly one statement. A text of no statement has no opcode name; a second statement is one
too many for a single statement's text. -/
def decode (text : List Char) : Except IllFormed Instr :=
  match transcribe text with
  | .error e => .error e
  | .ok [i] => .ok i
  | .ok [] => .error .unknownOpcode
  | .ok (_ :: _ :: _) => .error .badPunctuation

/-! ## The canonical text (R93) -/

/-- A hexadecimal digit, in upper case. -/
def hexChar (v : Nat) : Char :=
  if v < 10 then Char.ofNat (48 + v) else Char.ofNat (55 + v)

/-- The lowest `n` hexadecimal digits of a value. -/
def hexDigits : Nat → Nat → List Char
  | 0, _ => []
  | n + 1, v => hexDigits n (v / 16) ++ [hexChar (v % 16)]

/-- The decimal digits of a value that has at most `n` of them. -/
def decDigits : Nat → Nat → List Char
  | 0, _ => []
  | n + 1, v => if v < 10 then [Char.ofNat (48 + v)] else decDigits n (v / 10) ++ [Char.ofNat (48 + v % 10)]

/-- A literal in hexadecimal (R93): `least` digits, or as many more as its value needs. -/
def spellHexAtLeast (least v : Nat) : List Char :=
  '0' :: 'x' :: hexDigits (max least (v.log2 / 4 + 1)) v

/-- A literal at a position of class `w`, in hexadecimal at the operand's width (R93, spec/95_test_vectors.md). A value that
does not fit the position is spelled in full, so that its text is ill formed as its term is (R107). -/
def spellHex (w : Width) (v : Nat) : List Char :=
  spellHexAtLeast ((w.bits + 3) / 4) v

/-- A source operand of class `w`. -/
def spellSrc (w : Width) : Src → List Char
  | .reg r => r
  | .imm v => spellHex w v

/-- A literal in decimal. It has no more digits than its value has bits. -/
def spellDec (v : Nat) : List Char :=
  decDigits (v.log2 + 1) v

/-- A shift amount: a register of class 32, or a literal in decimal (R93). -/
def spellAmount : Src → List Char
  | .reg r => r
  | .imm v => spellDec v

/-- `immLut`, in two hexadecimal digits, or in more where its value is above 255 and its term ill formed (R108). -/
def spellLut (v : Nat) : List Char :=
  spellHexAtLeast 2 v

/-- The pair `d|p` (R97), with `_` for the sink. -/
def spellPair : DstSink → RegName → List Char
  | .reg d, p => d ++ '|' :: p
  | .sink, p => '_' :: '|' :: p

/-- The operands of a term in the order written, each in its canonical spelling. -/
def Instr.operandTexts (i : Instr) : List (List Char) :=
  match i.layout with
  | .f2 _ w d a => [d, spellSrc w a]
  | .f3 _ w d a b => [d, spellSrc w a, spellSrc w b]
  | .f3Shift _ w d a b => [d, spellSrc w a, spellAmount b]
  | .fl _ d a b c l => [d, spellSrc .w32 a, spellSrc .w32 b, spellSrc .w32 c, spellLut l]
  | .flb _ d p a b c l q =>
    [spellPair d p, spellSrc .w32 a, spellSrc .w32 b, spellSrc .w32 c, spellLut l, spellSrc .pred q]
  | .fs _ d a b c => [d, spellSrc .w32 a, spellSrc .w32 b, spellAmount c]

/-- Operands separated by a comma and one space. -/
def joinOperands : List (List Char) → List Char
  | [] => []
  | [o] => o
  | o :: os => o ++ ',' :: ' ' :: joinOperands os

/-- The encoder: the canonical text of a term (R93). -/
def encode (i : Instr) : List Char :=
  i.mnemonic.toList ++ ' ' :: (joinOperands i.operandTexts ++ [';'])

/-- The canonical text of a program: one statement a line (R93). -/
def encodeProgram : List Instr → List Char
  | [] => []
  | i :: is => encode i ++ '\n' :: encodeProgram is

/-! ## Bytes and table words (notes/assumptions/6.md) -/

/-- The character a byte stands for. -/
def charOfByte (b : Byte) : Char :=
  Char.ofNat b.toNat

/-- The bytes of a text, one a character. -/
def encodeBytes (i : Instr) : List Byte :=
  (encode i).map fun c => BitVec.ofNat 8 c.toNat

/-- The decoder on bytes. -/
def decodeBytes (bs : List Byte) : Except IllFormed Instr :=
  decode (bs.map charOfByte)

/-- The `n` lowest bytes of a number, the lowest first. -/
def bytesOfNat : Nat → Nat → List Byte
  | 0, _ => []
  | n + 1, w => BitVec.ofNat 8 w :: bytesOfNat n (w / 256)

/-- A byte list without the zero bytes at its end. -/
def dropZeros : List Byte → List Byte
  | [] => []
  | b :: bs => match dropZeros bs with
    | [] => if b = 0 then [] else [b]
    | c :: cs => b :: c :: cs

/-- The text that a table word of `nbits` bits holds: its bytes as characters, bits 7 to 0 the first character, without
the zero bytes that pad it. -/
def textOfWord (nbits w : Nat) : List Char :=
  (dropZeros (bytesOfNat ((nbits + 7) / 8) w)).map charOfByte

/-- The instruction the decoder reads from a table word. -/
def decodeTableWord (nbits w : Nat) : Option Instr :=
  match decode (textOfWord nbits w) with
  | .ok i => some i
  | .error _ => none

end Sys2Proof
end

