-- ==== Sys2Proof/Machine/Fetch.lean ====
section
/-! DEFINITION. The program and its launch: the statements of a program text, checked (spec/30_encoding.md R99), the
statement at `pc` (spec/70_reset_and_hazards.md R283, R285), and the launch state (R280). -/

namespace Sys2Proof

/-- The statements of the program, transcribed and checked, or the first check that fails. The whole program is checked
before any statement runs (R23, R99, R255). -/
def Params.statements (p : Params) : Except IllFormed (List Instr) :=
  match transcribe p.program with
  | .error e => .error e
  | .ok prog => match p.checkAll prog with
    | some e => .error e
    | none => .ok prog

end Sys2Proof

namespace Sys2Proof.Machine

/-- The statement that the next step executes (R283), or why there is none: the program is refused (R23), the run is
finished (R285), or `pc` is beyond the program. -/
def State.fetch (s : State) : Except Refusal Instr :=
  match s.params.statements with
  | .error e => .error (.illFormed e)
  | .ok prog => match prog[s.pc]? with
    | some i => .ok i
    | none => if s.pc = prog.length then .error .finished else .error .pcOutOfProgram

/-- The register map with the given values, whatever order they stand in. Of two values for one name the first counts. -/
def RegFile.ofList : List (RegName × Value) → RegFile
  | [] => []
  | (r, v) :: rest => (RegFile.ofList rest).set r v

/-- `Launch` gives only values that fit: each of its registers is declared, at the class of the value (R280). -/
def launchFits (decl : RegDecl) : List (RegName × Value) → Bool
  | [] => true
  | (r, v) :: rest => decide (decl.classOf r = some v.width) && launchFits decl rest

/-- The launch state of R280: the registers of `Launch` hold its values, every other register holds no value, `pc` is 0 and
no fault is set. -/
def State.launch (p : Params) (values : List (RegName × Value)) : State :=
  { params := p, regs := RegFile.ofList values, pc := 0, fault := none }

/-- The registers that a list of sources names. -/
def sourceDecl : List (Width × Src) → RegDecl
  | [] => []
  | (w, .reg r) :: rest => (r, w) :: sourceDecl rest
  | (_, .imm _) :: rest => sourceDecl rest

/-- The registers of the sources that hold no value of their class, set to zero (notes/assumptions/4.md). -/
def giveValues : List (Width × Src) → State → State
  | [], s => s
  | (w, .reg r) :: rest, s => match s.readReg w r with
    | some _ => giveValues rest s
    | none => giveValues rest (s.writeReg w r 0)
  | (_, .imm _) :: rest, s => giveValues rest s

/-- Loads a one-statement program: the text is the program and `pc` is at its first statement, with the registers it names
declared at the classes of their positions and a value in each that it reads (notes/assumptions/4.md). A text that is no
statement is loaded as it is. -/
def State.loadText (text : List Char) (s : State) : State :=
  match decode text with
  | .ok i =>
    giveValues i.reads
      { s with
        params := { s.params with program := text, decl := i.writes.map Prod.swap ++ sourceDecl i.reads ++ s.params.decl }
        pc := 0
        fault := none }
  | .error _ => { s with params := { s.params with program := text }, pc := 0, fault := none }

end Sys2Proof.Machine
end

