-- ==== Sys2Proof/Machine/Step.lean ====
section
/-! DEFINITION. One step of the machine (spec/70_reset_and_hazards.md R283, R285; spec/60_exceptions.md R253), and the
placing of one statement where the next step fetches it. -/

namespace Sys2Proof.Machine

/-- A faulted state has no further step (R43); otherwise the statement at `pc` is executed, if there is one (R283). -/
def step (s : State) : Host.Outcome State Fault Refusal :=
  match s.fault with
  | some f => .fault f
  | none => match s.fetch with
    | .ok i => exec i s
    | .error r => .refused r

/-- `s` with the statement whose text a table word holds loaded as its program, so that the next step executes it. -/
def State.withFetchWord (s : State) (nbits w : Nat) : State :=
  s.loadText (textOfWord nbits w)

end Sys2Proof.Machine
end

