-- ==== Sys2Proof/Safety.lean ====
section
/-! DEFINITION. The terms that claims use: what an instruction leaves unchanged, what a step keeps, the two ways a run ends
(spec/70_reset_and_hazards.md R285), and the operand positions of a well-formed term. -/

namespace Sys2Proof.Machine

/-! ## What an instruction does and leaves alone -/

/-- The registers an instruction writes (R34). -/
def destNames (i : Instr) : List RegName :=
  i.writes.map Prod.snd

/-- The registers that a list of sources names. -/
def sourceNames : List (Width × Src) → List RegName
  | [] => []
  | (_, .reg r) :: rest => r :: sourceNames rest
  | (_, .imm _) :: rest => sourceNames rest

/-- The frame: from `s` to `t` every register outside `ds`, the fault mark and the parameters (the program text, `RegDecl`,
`ptx_version`, `sm_target`) are unchanged. There is no flag, no special register and no memory beside them (R35, R39,
R60), and `pc` may change. -/
def OnlyWrites (s t : State) (ds : List RegName) : Prop :=
  t.params = s.params ∧ t.fault = s.fault ∧ ∀ r, r ∉ ds → t.regs.get r = s.regs.get r

/-- Executing `i` in `s` answers a next state in which `d` holds the value `v` of class `w`, `pc` is one more, and nothing
else has changed. -/
def Yields (i : Instr) (s : State) (w : Width) (d : RegName) (v : BitVec w.bits) : Prop :=
  ∃ t, exec i s = .next t ∧ t.readReg w d = some v ∧ t.pc = s.pc + 1 ∧ OnlyWrites s t [d]

/-- Every form `mk d a` whose operand can be read completes with a value of `d` that `P` relates to the value read. -/
def Completes1 (w : Width) (mk : RegName → Src → Instr) (P : BitVec w.bits → BitVec w.bits → Prop) : Prop :=
  ∀ (s : State) (d : RegName) (a : Src) (va : BitVec w.bits),
    s.operand w a = .ok va → ∃ v, P va v ∧ Yields (mk d a) s w d v

/-- Every form `mk d a b` whose operands can be read, `a` at class `w` and `b` at class `wb`, completes with a value of `d`
that `P` relates to the values read. -/
def Completes2 (w wb : Width) (mk : RegName → Src → Src → Instr)
    (P : BitVec w.bits → BitVec wb.bits → BitVec w.bits → Prop) : Prop :=
  ∀ (s : State) (d : RegName) (a b : Src) (va : BitVec w.bits) (vb : BitVec wb.bits),
    s.operand w a = .ok va → s.operand wb b = .ok vb → ∃ v, P va vb v ∧ Yields (mk d a b) s w d v

/-- Every form `mk d a b c` whose three 32-bit operands can be read completes with a value of `d` that `P` relates to the
values read. -/
def Completes3 (mk : RegName → Src → Src → Src → Instr)
    (P : BitVec 32 → BitVec 32 → BitVec 32 → BitVec 32 → Prop) : Prop :=
  ∀ (s : State) (d : RegName) (a b c : Src) (va vb vc : BitVec 32),
    s.operand .w32 a = .ok va → s.operand .w32 b = .ok vb → s.operand .w32 c = .ok vc →
      ∃ v, P va vb vc v ∧ Yields (mk d a b c) s .w32 d v

/-- Every bit of `v` is `f` of the bits of `va` and `vb` at its position (R14). -/
def BitByBit (w : Width) (f : Bool → Bool → Bool) (va vb v : BitVec w.bits) : Prop :=
  ∀ i, i < w.bits → v.getLsbD i = f (va.getLsbD i) (vb.getLsbD i)

/-- Bit `i` of `v` is the bit of `immLut` whose number has the bit of `va` at weight 4, of `vb` at weight 2, of `vc` at
weight 1 (R181, R182). -/
def TableOf (immLut : Nat) (va vb vc v : BitVec 32) : Prop :=
  ∀ i, i < 32 →
    v.getLsbD i = immLut.testBit (4 * (va.getLsbD i).toNat + 2 * (vb.getLsbD i).toNat + (vc.getLsbD i).toNat)

/-- The registers of `d` in `d|p`: none for the sink. -/
def dstSinkNames : DstSink → List RegName
  | .reg r => [r]
  | .sink => []

/-- Executing `i` in `s` answers a next state in which `d` holds `r` unless it is the sink, `p` holds `v`, `pc` is one
more, and nothing else has changed. -/
def YieldsPair (i : Instr) (s : State) (d : DstSink) (p : RegName) (r : BitVec 32) (v : BitVec 1) : Prop :=
  ∃ t, exec i s = .next t ∧ (∀ x ∈ dstSinkNames d, t.readReg .w32 x = some r) ∧ t.readReg .pred p = some v ∧
    t.pc = s.pc + 1 ∧ OnlyWrites s t (dstSinkNames d ++ [p])

/-- Every source operand of `i` can be read in `s`: it is a literal, or a register that holds a value of its class. -/
def Readable (i : Instr) (s : State) : Prop :=
  ∀ x ∈ i.reads, ∃ v, s.operand x.1 x.2 = .ok v

/-- The first source operand, in the order given, that is a register holding no value of its class (R252). -/
def firstUnread (s : State) : List (Width × Src) → Option RegName
  | [] => none
  | (w, o) :: rest => match s.operand w o with
    | .error r => some r
    | .ok _ => firstUnread s rest

/-! ## States and runs -/

/-- `k` steps from a state, stopping at the first that answers no next state. -/
def run : Nat → State → Host.Outcome State Fault Refusal
  | 0, s => .next s
  | k + 1, s => match step s with
    | .next t => run k t
    | .fault f => .fault f
    | .refused r => .refused r

/-- FINISHED of R285: every statement has run and no fault is set. -/
def Finished (s : State) : Prop :=
  s.fault = none ∧ ∃ prog, s.params.statements = .ok prog ∧ s.pc = prog.length

/-- FAULTED of R285. -/
def Faulted (s : State) : Prop :=
  s.fault ≠ none

/-- Every register that holds a value is declared, at the class of the value (R9, R31, R33). -/
def WellTyped (s : State) : Prop :=
  ∀ r v, s.regs.get r = some v → s.params.decl.classOf r = some v.width

/-- A fault mark says what happened: the statement at `pc` has a source register that holds no value, and the mark names
both (R251, R253). -/
def FaultExplained (s : State) : Prop :=
  ∀ n r, s.fault = some (.unwrittenRegisterRead n r) →
    n = s.pc ∧ s.regs.get r = none ∧
      ∃ prog i w, s.params.statements = .ok prog ∧ prog[n]? = some i ∧ (w, Src.reg r) ∈ i.reads

/-- The invariant of a run: the register map has its one canonical form, every value has its register's class, the program
is well formed and `pc` is an index of it or its end, and a fault mark is explained by the state. -/
def StateInv (s : State) : Prop :=
  s.regs.wf = true ∧ WellTyped s ∧
    (∃ prog, s.params.statements = .ok prog ∧ s.pc ≤ prog.length) ∧ FaultExplained s

/-- Every source register of every statement has a value before the statement runs: one of `known`, or a destination of an
earlier statement (R282). -/
def assignedBeforeUse : List RegName → List Instr → Bool
  | _, [] => true
  | known, i :: rest =>
    (sourceNames i.reads).all (fun r => decide (r ∈ known)) && assignedBeforeUse (destNames i ++ known) rest

/-! ## Operand positions of a well-formed term -/

/-- A register name that is legal at a position of class `w`: a name of R86, declared at that class (R84, R105, R106). -/
def RegAt (p : Params) (w : Width) (r : RegName) : Prop :=
  isRegName r = true ∧ p.decl.classOf r = some w

/-- A source operand that is legal at a position of class `w`: a register of the class, or at a class of 16, 32 or 64 bits
a literal below `2 ^ N` (R84, R85, R87). -/
def SrcAt (p : Params) (w : Width) (o : Src) : Prop :=
  (∃ r, o = .reg r ∧ RegAt p w r) ∨ (∃ v, o = .imm v ∧ w ≠ .pred ∧ v < 2 ^ w.bits)

/-- The `d` part of `d|p`: the sink, or a register of class 32 (R96). -/
def DstSinkAt (p : Params) (d : DstSink) : Prop :=
  d = .sink ∨ ∃ r, d = .reg r ∧ RegAt p .w32 r

/-- `ptx_version` is at least (`major`, `minor`) and `sm_target` at least `target`, in the order of R6 and R7. -/
def Allows (p : Params) (major minor target : Nat) : Prop :=
  (major < p.ptxVersion.major ∨ (p.ptxVersion.major = major ∧ minor ≤ p.ptxVersion.minor)) ∧ target ≤ p.smTarget

end Sys2Proof.Machine
end

