-- ==== Sys2Proof/Certificates/Slice0/Obligations.lean ====
section
/-! DEFINITION. The statements for the provers, from the numbered rules of spec/. A statement about every state holds in
states that no run reaches as well. -/

section Statements

open Sys2Proof Sys2Proof.Machine

/-! ## What each form computes, and what it leaves alone -/

/-- R130 to R134: `and` completes on readable operands, bit i of `d` is the and of bits i, nothing else changes. -/
def Obligations.AndResult : Prop :=
  Completes2 .pred .pred .andPred (BitByBit .pred fun x y => x && y) ∧
  Completes2 .w16 .w16 .andB16 (BitByBit .w16 fun x y => x && y) ∧
  Completes2 .w32 .w32 .andB32 (BitByBit .w32 fun x y => x && y) ∧
  Completes2 .w64 .w64 .andB64 (BitByBit .w64 fun x y => x && y)

/-- R140 to R144: `or`, bit by bit. -/
def Obligations.OrResult : Prop :=
  Completes2 .pred .pred .orPred (BitByBit .pred fun x y => x || y) ∧
  Completes2 .w16 .w16 .orB16 (BitByBit .w16 fun x y => x || y) ∧
  Completes2 .w32 .w32 .orB32 (BitByBit .w32 fun x y => x || y) ∧
  Completes2 .w64 .w64 .orB64 (BitByBit .w64 fun x y => x || y)

/-- R150 to R154: `xor`, bit by bit: 1 where the bits differ. -/
def Obligations.XorResult : Prop :=
  Completes2 .pred .pred .xorPred (BitByBit .pred fun x y => x != y) ∧
  Completes2 .w16 .w16 .xorB16 (BitByBit .w16 fun x y => x != y) ∧
  Completes2 .w32 .w32 .xorB32 (BitByBit .w32 fun x y => x != y) ∧
  Completes2 .w64 .w64 .xorB64 (BitByBit .w64 fun x y => x != y)

/-- R160 to R164: `not` gives `2^N - 1 - a`. -/
def Obligations.NotResult : Prop :=
  Completes1 .pred .notPred (fun va v => v.toNat = 2 ^ 1 - 1 - va.toNat) ∧
  Completes1 .w16 .notB16 (fun va v => v.toNat = 2 ^ 16 - 1 - va.toNat) ∧
  Completes1 .w32 .notB32 (fun va v => v.toNat = 2 ^ 32 - 1 - va.toNat) ∧
  Completes1 .w64 .notB64 (fun va v => v.toNat = 2 ^ 64 - 1 - va.toNat)

/-- R170 to R173: `cnot` gives the N-bit value 1 for a zero operand and 0 for any other. -/
def Obligations.CnotResult : Prop :=
  Completes1 .w16 .cnotB16 (fun va v => v.toNat = if va.toNat = 0 then 1 else 0) ∧
  Completes1 .w32 .cnotB32 (fun va v => v.toNat = if va.toNat = 0 then 1 else 0) ∧
  Completes1 .w64 .cnotB64 (fun va v => v.toNat = if va.toNat = 0 then 1 else 0)

/-- R183 with R181: `lop3.b32` looks up every bit of its result in `immLut`. -/
def Obligations.Lop3Result : Prop :=
  ∀ immLut : Nat, Completes3 (fun d a b c => .lop3B32 d a b c immLut) (TableOf immLut)

/-- R184, R185: `lop3.or.b32` and `lop3.and.b32` write the looked-up result to `d` unless it is the sink, and to `p` whether
the result is non-zero, or-ed or and-ed with `q`. `d` and `p` are different registers in every well-formed statement
(R112). -/
def Obligations.Lop3BoolResult : Prop :=
  ∀ (s : State) (d : DstSink) (p : RegName) (a b c : Src) (immLut : Nat) (q : Src) (va vb vc : BitVec 32) (vq : BitVec 1),
    s.operand .w32 a = .ok va → s.operand .w32 b = .ok vb → s.operand .w32 c = .ok vc → s.operand .pred q = .ok vq →
    d ≠ .reg p →
    ∃ r, TableOf immLut va vb vc r ∧
      YieldsPair (.lop3OrB32 d p a b c immLut q) s d p r (if r.toNat ≠ 0 ∨ vq.toNat = 1 then 1#1 else 0#1) ∧
      YieldsPair (.lop3AndB32 d p a b c immLut q) s d p r (if r.toNat ≠ 0 ∧ vq.toNat = 1 then 1#1 else 0#1)

/-- R186: the complete table of `BoolOp`, for the predicate that `p` holds after the statement, whether or not the 32-bit
result was written. -/
def Obligations.Lop3BoolOpTable : Prop :=
  ∀ (s : State) (d : DstSink) (p : RegName) (a b c : Src) (immLut : Nat) (q : Src) (va vb vc : BitVec 32) (vq : BitVec 1),
    s.operand .w32 a = .ok va → s.operand .w32 b = .ok vb → s.operand .w32 c = .ok vc → s.operand .pred q = .ok vq →
    ∃ r t u, TableOf immLut va vb vc r ∧
      exec (.lop3OrB32 d p a b c immLut q) s = .next t ∧ exec (.lop3AndB32 d p a b c immLut q) s = .next u ∧
      (r = 0 → vq = 0 → t.readReg .pred p = some 0 ∧ u.readReg .pred p = some 0) ∧
      (r = 0 → vq = 1 → t.readReg .pred p = some 1 ∧ u.readReg .pred p = some 0) ∧
      (r ≠ 0 → vq = 0 → t.readReg .pred p = some 1 ∧ u.readReg .pred p = some 0) ∧
      (r ≠ 0 → vq = 1 → t.readReg .pred p = some 1 ∧ u.readReg .pred p = some 1)

/-- R200 to R203: `shf.l` gives bits 63 to 32 of the 64-bit value with `b` high and `a` low, shifted left by the amount. -/
def Obligations.ShfLeftResult : Prop :=
  Completes3 .shfLClampB32 (fun va vb vc v =>
    v.toNat = (vb.toNat * 2 ^ 32 + va.toNat) * 2 ^ (min vc.toNat 32) % 2 ^ 64 / 2 ^ 32) ∧
  Completes3 .shfLWrapB32 (fun va vb vc v =>
    v.toNat = (vb.toNat * 2 ^ 32 + va.toNat) * 2 ^ (vc.toNat % 32) % 2 ^ 64 / 2 ^ 32)

/-- R200, R201, R204, R205: `shf.r` gives bits 31 to 0 of the same value shifted right by the amount. -/
def Obligations.ShfRightResult : Prop :=
  Completes3 .shfRClampB32 (fun va vb vc v =>
    v.toNat = (vb.toNat * 2 ^ 32 + va.toNat) / 2 ^ (min vc.toNat 32) % 2 ^ 32) ∧
  Completes3 .shfRWrapB32 (fun va vb vc v =>
    v.toNat = (vb.toNat * 2 ^ 32 + va.toNat) / 2 ^ (vc.toNat % 32) % 2 ^ 32)

/-- R220 to R223: `shl` gives `(a * 2^n) mod 2^N` with n = min(b, N) and `b` an unsigned 32-bit number. -/
def Obligations.ShlResult : Prop :=
  Completes2 .w16 .w32 .shlB16 (fun va vb v => v.toNat = va.toNat * 2 ^ (min vb.toNat 16) % 2 ^ 16) ∧
  Completes2 .w32 .w32 .shlB32 (fun va vb v => v.toNat = va.toNat * 2 ^ (min vb.toNat 32) % 2 ^ 32) ∧
  Completes2 .w64 .w32 .shlB64 (fun va vb v => v.toNat = va.toNat * 2 ^ (min vb.toNat 64) % 2 ^ 64)

/-- R230 to R237: `shr.bN` and `shr.uN` give `floor(a / 2^n)` with n = min(b, N). -/
def Obligations.ShrZeroFillResult : Prop :=
  Completes2 .w16 .w32 .shrB16 (fun va vb v => v.toNat = va.toNat / 2 ^ (min vb.toNat 16)) ∧
  Completes2 .w32 .w32 .shrB32 (fun va vb v => v.toNat = va.toNat / 2 ^ (min vb.toNat 32)) ∧
  Completes2 .w64 .w32 .shrB64 (fun va vb v => v.toNat = va.toNat / 2 ^ (min vb.toNat 64)) ∧
  Completes2 .w16 .w32 .shrU16 (fun va vb v => v.toNat = va.toNat / 2 ^ (min vb.toNat 16)) ∧
  Completes2 .w32 .w32 .shrU32 (fun va vb v => v.toNat = va.toNat / 2 ^ (min vb.toNat 32)) ∧
  Completes2 .w64 .w32 .shrU64 (fun va vb v => v.toNat = va.toNat / 2 ^ (min vb.toNat 64))

/-- R230, R231, R238 to R240: `shr.sN` gives the two's complement reading of `a` divided by 2^n and rounded toward minus
infinity, with n = min(b, N) and `b` unsigned. -/
def Obligations.ShrSignFillResult : Prop :=
  Completes2 .w16 .w32 .shrS16 (fun va vb v => v.toInt = Int.fdiv va.toInt (2 ^ (min vb.toNat 16))) ∧
  Completes2 .w32 .w32 .shrS32 (fun va vb v => v.toInt = Int.fdiv va.toInt (2 ^ (min vb.toNat 32))) ∧
  Completes2 .w64 .w32 .shrS64 (fun va vb v => v.toInt = Int.fdiv va.toInt (2 ^ (min vb.toNat 64)))

/-! ## Operands, registers and the fault -/

/-- R18, R87: the value of an operand: the number of a literal that fits, the value a register holds, and none for a
register that holds no value. -/
def Obligations.OperandValue : Prop :=
  ∀ (s : State) (w : Width),
    (∀ v, v < 2 ^ w.bits → ∃ x, s.operand w (.imm v) = .ok x ∧ x.toNat = v) ∧
    (∀ r v, s.regs.get r = some (Value.ofBits w v) → s.operand w (.reg r) = .ok v) ∧
    ∀ r, s.regs.get r = none → s.operand w (.reg r) = .error r

/-- R19, R31: a write to a register is read back, changes no other register, whatever their classes, and keeps the register
map in its one form. -/
def Obligations.RegisterWrite : Prop :=
  ∀ (s : State) (w : Width) (r : RegName) (v : BitVec w.bits),
    (s.writeReg w r v).readReg w r = some v ∧
    (∀ q, q ≠ r → (s.writeReg w r v).regs.get q = s.regs.get q) ∧
    (s.regs.wf = true → (s.writeReg w r v).regs.wf = true)

/-- R34: which forms read and write which registers, with the class of each position, sources in the order they are read
(R252). -/
def Obligations.OperandTable : Prop :=
  (∀ w mk, (w, mk) ∈ [(Width.pred, Instr.andPred), (.w16, .andB16), (.w32, .andB32), (.w64, .andB64),
      (.pred, .orPred), (.w16, .orB16), (.w32, .orB32), (.w64, .orB64),
      (.pred, .xorPred), (.w16, .xorB16), (.w32, .xorB32), (.w64, .xorB64)] →
    ∀ d a b, (mk d a b).reads = [(w, a), (w, b)] ∧ (mk d a b).writes = [(w, d)]) ∧
  (∀ w mk, (w, mk) ∈ [(Width.pred, Instr.notPred), (.w16, .notB16), (.w32, .notB32), (.w64, .notB64),
      (.w16, .cnotB16), (.w32, .cnotB32), (.w64, .cnotB64)] →
    ∀ d a, (mk d a).reads = [(w, a)] ∧ (mk d a).writes = [(w, d)]) ∧
  (∀ d a b c l, (Instr.lop3B32 d a b c l).reads = [(.w32, a), (.w32, b), (.w32, c)] ∧
    (Instr.lop3B32 d a b c l).writes = [(.w32, d)]) ∧
  (∀ mk, mk ∈ [Instr.lop3OrB32, Instr.lop3AndB32] → ∀ p a b c l q,
    (∀ d, (mk d p a b c l q).reads = [(.w32, a), (.w32, b), (.w32, c), (.pred, q)]) ∧
    (∀ d, (mk (.reg d) p a b c l q).writes = [(.w32, d), (.pred, p)]) ∧
    (mk .sink p a b c l q).writes = [(.pred, p)]) ∧
  (∀ mk, mk ∈ [Instr.shfLClampB32, Instr.shfLWrapB32, Instr.shfRClampB32, Instr.shfRWrapB32] →
    ∀ d a b c, (mk d a b c).reads = [(.w32, a), (.w32, b), (.w32, c)] ∧ (mk d a b c).writes = [(.w32, d)]) ∧
  (∀ w mk, (w, mk) ∈ [(Width.w16, Instr.shlB16), (.w32, .shlB32), (.w64, .shlB64),
      (.w16, .shrB16), (.w32, .shrB32), (.w64, .shrB64), (.w16, .shrU16), (.w32, .shrU32), (.w64, .shrU64),
      (.w16, .shrS16), (.w32, .shrS32), (.w64, .shrS64)] →
    ∀ d a b, (mk d a b).reads = [(w, a), (.w32, b)] ∧ (mk d a b).writes = [(w, d)])

/-- R253, with the condition of R251 and R252: where a source register holds no value and every source before it can be
read, whatever the later ones are, the statement sets the fault mark with its own index and that register's name and changes
nothing else; the state has no further step and is not a finished state. That `step` answers it by the outcome `fault` with
that mark is the model's choice (notes/assumptions/5.md). -/
def Obligations.UnwrittenReadFaults : Prop :=
  ∀ (i : Instr) (s : State) (before after : List (Width × Src)) (w : Width) (r : RegName),
    i.reads = before ++ (w, .reg r) :: after → (∀ x ∈ before, ∃ v, s.operand x.1 x.2 = .ok v) → s.regs.get r = none →
    exec i s = .next { s with fault := some (.unwrittenRegisterRead s.pc r) } ∧
    step { s with fault := some (.unwrittenRegisterRead s.pc r) } = .fault (.unwrittenRegisterRead s.pc r) ∧
    ¬ Finished { s with fault := some (.unwrittenRegisterRead s.pc r) }

/-- R34, R250: every form whose sources can be read completes, writes its destinations, each with a value of the class of
its position, and leaves every other register, the fault mark and the parameters alone. -/
def Obligations.EveryFormCompletes : Prop :=
  ∀ (i : Instr) (s : State), Readable i s →
    ∃ t, exec i s = .next t ∧ t.pc = s.pc + 1 ∧ OnlyWrites s t (destNames i) ∧
      ∀ r ∈ destNames i, ∃ v, t.regs.get r = some v ∧ (v.width, r) ∈ i.writes

/-- R45: the result of every form is a function of the values of its operands alone: two states that agree on them, whatever
else they hold, give the destinations the same values. -/
def Obligations.ResultFromOperands : Prop :=
  ∀ (i : Instr) (s₁ s₂ : State), Readable i s₁ → (∀ x ∈ i.reads, s₁.operand x.1 x.2 = s₂.operand x.1 x.2) →
    ∃ t₁ t₂, exec i s₁ = .next t₁ ∧ exec i s₂ = .next t₂ ∧ ∀ r ∈ destNames i, t₁.regs.get r = t₂.regs.get r

/-- R43: the fault mark is none at launch, a step leaves it none or sets it to `UnwrittenRegisterRead` with the statement's
index, and a state in which it is set has no further step and is not finished. That `step` answers it by the outcome `fault`
with that mark is the model's choice (notes/assumptions/5.md). -/
def Obligations.FaultMark : Prop :=
  (∀ p values, (State.launch p values).fault = none) ∧
  (∀ s t, step s = .next t →
    s.fault = none ∧ (t.fault = none ∨ ∃ r, t.fault = some (.unwrittenRegisterRead s.pc r))) ∧
  ∀ s f, s.fault = some f → step s = .fault f ∧ ¬ Finished s

/-! ## Programs, steps and runs -/

/-- R99, R255: a program has statements to run exactly where its text transcribes and every term passes its checks;
otherwise it is refused by name before anything runs, at every step as the model chose (notes/assumptions/5.md, 8.md). -/
def Obligations.IllFormedProgramRefused : Prop :=
  (∀ (p : Params) (prog : List Instr),
    p.statements = .ok prog ↔ transcribe p.program = .ok prog ∧ ∀ i ∈ prog, i.WellFormed p) ∧
  ∀ (s : State) (e : IllFormed), s.fault = none → s.params.statements = .error e → step s = .refused (.illFormed e)

/-- R8: a program with a form whose version or target requirement is not met is refused and has no step. That the refusal is
the answer of `step`, at every state without a fault mark, is the model's choice (notes/assumptions/5.md, 8.md). -/
def Obligations.UnavailableFormRefused : Prop :=
  ∀ (s : State) (prog : List Instr) (i : Instr), s.fault = none → transcribe s.params.program = .ok prog → i ∈ prog →
    ¬ Allows s.params i.gate.version.major i.gate.version.minor i.gate.target →
    ∃ e, step s = .refused (.illFormed e)

/-- R283: with no fault set, the step executes the statement that the program text has at `pc`. -/
def Obligations.StepRunsDecoded : Prop :=
  ∀ (s : State) (prog : List Instr) (i : Instr), s.fault = none → transcribe s.params.program = .ok prog →
    (∀ j ∈ prog, j.WellFormed s.params) → prog[s.pc]? = some i → step s = exec i s

/-- R285, with the answers of notes/assumptions/5.md: a finished state is answered by the refusal `finished`, and no other
state is. -/
def Obligations.FinishedStops : Prop :=
  ∀ s : State, Finished s ↔ step s = .refused .finished

/-- R41: a step that does not fault adds one to `pc`, a faulting one leaves it, and at `pc` = len there is no step. -/
def Obligations.StepAdvances : Prop :=
  (∀ s t, step s = .next t → (t.fault = none ∧ t.pc = s.pc + 1) ∨ (t.fault ≠ none ∧ t.pc = s.pc)) ∧
  ∀ (s : State) (prog : List Instr), s.params.statements = .ok prog → s.pc = prog.length →
    (∀ t, step s ≠ .next t) ∧ (s.fault = none → Finished s)

/-- R42: the program, `RegDecl`, `ptx_version` and `sm_target` are the same in every state of a run. -/
def Obligations.ParametersFixed : Prop :=
  ∀ (k : Nat) (s t : State), run k s = .next t → t.params = s.params

/-- R46, with the choices of notes/assumptions/2.md and 3.md: before a program is loaded `pc` is 0, no fault is set, no
register is declared or holds a value, the version and the target are the defaults of R6 and R7, and there is nothing to
execute. -/
def Obligations.ResetState : Prop :=
  State.reset.pc = 0 ∧ State.reset.fault = none ∧ (∀ r, State.reset.regs.get r = none) ∧
    State.reset.params = { program := [], decl := [], ptxVersion := ⟨8, 2⟩, smTarget := 70 } ∧
    step State.reset = .refused .finished

/-- The invariant `StateInv` holds before a program is loaded. -/
def Obligations.ResetInv : Prop :=
  StateInv State.reset

/-- R280: in the launch state every register in the domain of `Launch` holds the value `Launch` gives it, every other
register holds no value, `pc` is 0 and no fault is set. -/
def Obligations.LaunchState : Prop :=
  ∀ (p : Params) (values : List (RegName × Value)), (values.map Prod.fst).Nodup →
    (∀ r v, (r, v) ∈ values → (State.launch p values).regs.get r = some v) ∧
    (∀ r, r ∉ values.map Prod.fst → (State.launch p values).regs.get r = none) ∧
    (State.launch p values).pc = 0 ∧ (State.launch p values).fault = none ∧ (State.launch p values).params = p

/-- R282: the launch of a well-formed program with values that fit satisfies the invariant. -/
def Obligations.LaunchInv : Prop :=
  ∀ (p : Params) (prog : List Instr) (values : List (RegName × Value)), p.statements = .ok prog →
    launchFits p.decl values = true → StateInv (State.launch p values)

/-- Every step keeps the invariant: one form of the register map, every value at its register's class, a well-formed
program, `pc` within it, and a fault mark that the state explains (R31, R33, R41, R253). -/
def Obligations.StepKeepsInv : Prop :=
  ∀ s t : State, StateInv s → step s = .next t → StateInv t

/-- R285: from every state of the invariant a run is over after at most the remaining number of steps, in exactly one of two
ways: finished, or faulted. -/
def Obligations.EveryRunEnds : Prop :=
  ∀ (s : State) (prog : List Instr), StateInv s → s.params.statements = .ok prog →
    ∃ k t, k ≤ prog.length - s.pc ∧ run k s = .next t ∧ (∀ u, step t ≠ .next u) ∧
      ((Finished t ∧ ¬ Faulted t) ∨ (Faulted t ∧ ¬ Finished t))

/-- R282: a run from launch finishes without a fault exactly where every register is given a value, by `Launch` or by an
earlier statement, before a statement reads it. -/
def Obligations.FinishesIffAssignedBeforeUse : Prop :=
  ∀ (p : Params) (prog : List Instr) (values : List (RegName × Value)), p.statements = .ok prog →
    launchFits p.decl values = true →
    ((∃ t, run prog.length (State.launch p values) = .next t ∧ Finished t) ↔
      assignedBeforeUse (values.map Prod.fst) prog = true)

/-- R291: along a run a register keeps its value until a statement that names it as a destination is executed. -/
def Obligations.RegistersKeepTheirValues : Prop :=
  ∀ (k : Nat) (s t : State) (prog : List Instr) (r : RegName), s.params.statements = .ok prog →
    run k s = .next t →
    (∀ i ∈ (prog.drop s.pc).take (t.pc - s.pc), r ∉ destNames i) → t.regs.get r = s.regs.get r

/-- R45 over runs: two states that agree on a set of registers holding every register the program reads run in step: after
as many steps they have the same `pc`, the same fault mark and the same values in that set, whatever the other registers
hold. -/
def Obligations.RunDependsOnRegistersRead : Prop :=
  ∀ (k : Nat) (s₁ s₂ t₁ : State) (prog : List Instr) (names : List RegName), s₁.params.statements = .ok prog →
    s₂.params = s₁.params → s₂.pc = s₁.pc → s₂.fault = s₁.fault →
    (∀ i ∈ prog, ∀ r ∈ sourceNames i.reads, r ∈ names) → (∀ r ∈ names, s₁.regs.get r = s₂.regs.get r) →
    run k s₁ = .next t₁ →
    ∃ t₂, run k s₂ = .next t₂ ∧ t₂.pc = t₁.pc ∧ t₂.fault = t₁.fault ∧
      ∀ r ∈ names, t₁.regs.get r = t₂.regs.get r

/-- The load of notes/assumptions/4.md: the text of a well-formed statement, loaded into any state, is what the next step
executes, and it completes. -/
def Obligations.LoadedStatementRuns : Prop :=
  ∀ (s : State) (i : Instr), i.WellFormed s.params →
    step (s.loadText (encode i)) = exec i (s.loadText (encode i)) ∧
    ∃ t, step (s.loadText (encode i)) = .next t ∧ t.fault = none ∧ t.pc = 1

/-! ## Text -/

/-- R93: the canonical text of every well-formed term decodes to that term. -/
def Obligations.DecodeEncode : Prop :=
  ∀ (p : Params) (i : Instr), i.WellFormed p → decode (encode i) = .ok i

/-- The same through bytes, one a character (notes/assumptions/6.md). -/
def Obligations.DecodeEncodeBytes : Prop :=
  ∀ (p : Params) (i : Instr), i.WellFormed p → decodeBytes (encodeBytes i) = .ok i

/-- R93: the canonical text of a program of well-formed terms, one statement a line, transcribes to those terms, and is a
well-formed program. -/
def Obligations.TranscribeEncodeProgram : Prop :=
  ∀ (p : Params) (prog : List Instr), (∀ i ∈ prog, i.WellFormed p) →
    transcribe (encodeProgram prog) = .ok prog ∧ ({ p with program := encodeProgram prog } : Params).statements = .ok prog

/-- Statements written out from the templates of R82 and R92, and the terms they stand for. -/
def Obligations.DecodeWords : Prop :=
  decode "and.b32  x,q,0x80000000;".toList = .ok (.andB32 ['x'] (.reg ['q']) (.imm 2147483648)) ∧
  decode "or.pred d, a, b;".toList = .ok (.orPred ['d'] (.reg ['a']) (.reg ['b'])) ∧
  decode "xor.b16 d, a, 0x0001;".toList = .ok (.xorB16 ['d'] (.reg ['a']) (.imm 1)) ∧
  decode "not.b64 d, a;".toList = .ok (.notB64 ['d'] (.reg ['a'])) ∧
  decode "cnot.b32 d, a;".toList = .ok (.cnotB32 ['d'] (.reg ['a'])) ∧
  decode "lop3.b32 d, a, b, c, 0x40;".toList = .ok (.lop3B32 ['d'] (.reg ['a']) (.reg ['b']) (.reg ['c']) 64) ∧
  decode "lop3.and.b32 _|p, a, b, c, 0x3f, q;".toList =
    .ok (.lop3AndB32 .sink ['p'] (.reg ['a']) (.reg ['b']) (.reg ['c']) 63 (.reg ['q'])) ∧
  decode "shf.r.clamp.b32  r,r,s,n;".toList = .ok (.shfRClampB32 ['r'] (.reg ['r']) (.reg ['s']) (.reg ['n'])) ∧
  decode "shl.b32  q,a,2;".toList = .ok (.shlB32 ['q'] (.reg ['a']) (.imm 2)) ∧
  decode "shr.s32  i,i,1;".toList = .ok (.shrS32 ['i'] (.reg ['i']) (.imm 1))

/-- R92: the 38 mnemonics, no two alike, and the mnemonic of every form among them. -/
def Obligations.OpcodeMap : Prop :=
  opcodeMap.map Prod.fst =
    ["and.pred", "and.b16", "and.b32", "and.b64", "or.pred", "or.b16", "or.b32", "or.b64",
      "xor.pred", "xor.b16", "xor.b32", "xor.b64", "not.pred", "not.b16", "not.b32", "not.b64",
      "cnot.b16", "cnot.b32", "cnot.b64", "lop3.b32", "lop3.or.b32", "lop3.and.b32",
      "shf.l.clamp.b32", "shf.l.wrap.b32", "shf.r.clamp.b32", "shf.r.wrap.b32", "shl.b16", "shl.b32", "shl.b64",
      "shr.b16", "shr.b32", "shr.b64", "shr.u16", "shr.u32", "shr.u64", "shr.s16", "shr.s32", "shr.s64"] ∧
  (opcodeMap.map Prod.fst).Nodup ∧ ∀ i : Instr, i.mnemonic ∈ opcodeMap.map Prod.fst

/-- R94: a comment from `//` to the end of its line or of the text, and a blank line, change nothing. -/
def Obligations.CommentsSkipped : Prop :=
  (∀ before comment after : List Char, before.getLast? ≠ some '/' → '\n' ∉ comment →
    transcribe (before ++ '/' :: '/' :: (comment ++ '\n' :: after)) = transcribe (before ++ '\n' :: after)) ∧
  (∀ before comment : List Char, before.getLast? ≠ some '/' → '\n' ∉ comment →
    transcribe (before ++ '/' :: '/' :: comment) = transcribe before) ∧
  ∀ before after : List Char, transcribe (before ++ '\n' :: '\n' :: after) = transcribe (before ++ '\n' :: after)

/-- R93, with the white space of notes/assumptions/9.md: the amount of white space does not count. -/
def Obligations.WhiteSpaceIgnored : Prop :=
  ∀ before space after : List Char, '/' ∉ before → space ≠ [] → (∀ c ∈ space, isSpace c = true) →
    transcribe (before ++ (space ++ after)) = transcribe (before ++ ' ' :: after)

/-- R87: the decimal and the hexadecimal numeral of a number are read as that number, zeros after `0x` do not count, and a
decimal numeral with a leading zero and an empty hexadecimal numeral are no literals. -/
def Obligations.Literals : Prop :=
  (∀ v : Nat, readNumeral (Nat.toDigits 10 v) = some v ∧ readNumeral ('0' :: 'x' :: Nat.toDigits 16 v) = some v) ∧
  (∀ (k : Nat) (digits : List Char), digits ≠ [] →
    readNumeral ('0' :: 'x' :: (List.replicate k '0' ++ digits)) = readNumeral ('0' :: 'x' :: digits)) ∧
  (∀ (c : Char) (rest : List Char), c ≠ 'x' → readNumeral ('0' :: c :: rest) = none) ∧ readNumeral ['0', 'x'] = none

/-! ## Well-formed statements -/

/-- R6, R7, R84, R85: which `and`, `or`, `xor`, `not` and `cnot` statements are well formed. -/
def Obligations.LogicWellFormed : Prop :=
  (∀ w mk, (w, mk) ∈ [(Width.pred, Instr.andPred), (.w16, .andB16), (.w32, .andB32), (.w64, .andB64),
      (.pred, .orPred), (.w16, .orB16), (.w32, .orB32), (.w64, .orB64),
      (.pred, .xorPred), (.w16, .xorB16), (.w32, .xorB32), (.w64, .xorB64)] →
    ∀ p d a b, (mk d a b).WellFormed p ↔ Allows p 1 0 0 ∧ RegAt p w d ∧ SrcAt p w a ∧ SrcAt p w b) ∧
  ∀ w mk, (w, mk) ∈ [(Width.pred, Instr.notPred), (.w16, .notB16), (.w32, .notB32), (.w64, .notB64),
      (.w16, .cnotB16), (.w32, .cnotB32), (.w64, .cnotB64)] →
    ∀ p d a, (mk d a).WellFormed p ↔ Allows p 1 0 0 ∧ RegAt p w d ∧ SrcAt p w a

/-- R84, R85, R88, R96, R187: which `lop3` statements are well formed; the two destinations are then different registers
(R112). -/
def Obligations.Lop3WellFormed : Prop :=
  (∀ p d a b c l, (Instr.lop3B32 d a b c l).WellFormed p ↔
    Allows p 4 3 50 ∧ RegAt p .w32 d ∧ SrcAt p .w32 a ∧ SrcAt p .w32 b ∧ SrcAt p .w32 c ∧ l < 256) ∧
  ∀ mk, mk ∈ [Instr.lop3OrB32, Instr.lop3AndB32] → ∀ p d x a b c l q,
    ((mk d x a b c l q).WellFormed p ↔
      Allows p 8 2 70 ∧ DstSinkAt p d ∧ RegAt p .pred x ∧ SrcAt p .w32 a ∧ SrcAt p .w32 b ∧ SrcAt p .w32 c ∧ l < 256 ∧
        SrcAt p .pred q) ∧
    ((mk d x a b c l q).WellFormed p → d ≠ .reg x ∧ ∃ r, q = .reg r)

/-- R84, R85, R89, R211: which `shf`, `shl` and `shr` statements are well formed. -/
def Obligations.ShiftWellFormed : Prop :=
  (∀ mk, mk ∈ [Instr.shfLClampB32, Instr.shfLWrapB32, Instr.shfRClampB32, Instr.shfRWrapB32] → ∀ p d a b c,
    (mk d a b c).WellFormed p ↔ Allows p 3 1 32 ∧ RegAt p .w32 d ∧ SrcAt p .w32 a ∧ SrcAt p .w32 b ∧ SrcAt p .w32 c) ∧
  ∀ w mk, (w, mk) ∈ [(Width.w16, Instr.shlB16), (.w32, .shlB32), (.w64, .shlB64),
      (.w16, .shrB16), (.w32, .shrB32), (.w64, .shrB64), (.w16, .shrU16), (.w32, .shrU32), (.w64, .shrU64),
      (.w16, .shrS16), (.w32, .shrS32), (.w64, .shrS64)] →
    ∀ p d a b, (mk d a b).WellFormed p ↔ Allows p 1 0 0 ∧ RegAt p w d ∧ SrcAt p w a ∧ SrcAt p .w32 b

/-- R6, R7, R109: the default parameters are (8, 2) and 70, and the check of version and target passes on every form exactly
under parameters that are at least these. That the check's failure is read off the refusal `versionOrTarget`, under every
`RegDecl`, rests on the model's choice to check version and target before the operands of a term
(notes/assumptions/7.md). -/
def Obligations.DefaultsAdmitEveryForm : Prop :=
  Config.defaultPtxVersion = ⟨8, 2⟩ ∧ Config.defaultSmTarget = 70 ∧
  ∀ p : Params, Allows p 8 2 70 ↔ ∀ i : Instr, i.check p ≠ some .versionOrTarget

/-! ## The laws the spec derives -/

/-- R182: the function of a table: every bit by its own look-up, and as the or of the selected minterms. -/
def Obligations.Lop3Minterms : Prop :=
  ∀ (immLut : BitVec 8) (va vb vc : BitVec 32),
    TableOf immLut.toNat va vb vc (lop3Table immLut va vb vc) ∧
    lop3Table immLut va vb vc =
      ((List.range 8).filter fun k => immLut.getLsbD k).foldr
        (fun k r => (((if k.testBit 2 then va else ~~~va) &&& (if k.testBit 1 then vb else ~~~vb) &&&
          (if k.testBit 0 then vc else ~~~vc)) ||| r)) 0#32

/-- R180, R181: every Boolean function of three inputs has exactly one `immLut`, and its bit k is the function at the bits
2, 1 and 0 of k. -/
def Obligations.Lop3EveryFunctionOnce : Prop :=
  ∀ f : Bool → Bool → Bool → Bool, ∃ immLut : BitVec 8,
    (∀ k, k < 8 → immLut.getLsbD k = f (k.testBit 2) (k.testBit 1) (k.testBit 0)) ∧
    ∀ m : BitVec 8,
      (∀ (va vb vc : BitVec 32) (i : Nat), i < 32 →
        (lop3Table m va vb vc).getLsbD i = f (va.getLsbD i) (vb.getLsbD i) (vc.getLsbD i)) ↔ m = immLut

/-- R189: the `immLut` values of common functions. -/
def Obligations.Lop3KnownTables : Prop :=
  ∀ a b c : BitVec 32,
    lop3Table 0x00 a b c = 0 ∧ lop3Table 0x80 a b c = a &&& b &&& c ∧ lop3Table 0x40 a b c = a &&& b &&& ~~~c ∧
    lop3Table 0xFE a b c = a ||| b ||| c ∧ lop3Table 0xFF a b c = 0xFFFFFFFF ∧
    lop3Table 0x1A a b c = (a &&& b ||| c) ^^^ a ∧ lop3Table 0x3F a b c = ~~~(a &&& b) ∧
    lop3Table 0xF0 a b c = a ∧ lop3Table 0xCC a b c = b ∧ lop3Table 0xAA a b c = c ∧
    lop3Table 0x0F a b c = ~~~a ∧ lop3Table 0x33 a b c = ~~~b ∧ lop3Table 0x55 a b c = ~~~c ∧
    lop3Table 0xC0 a b c = a &&& b ∧ lop3Table 0xFC a b c = a ||| b ∧ lop3Table 0x3C a b c = a ^^^ b ∧
    lop3Table 0x30 a b c = a &&& ~~~b ∧ lop3Table 0x96 a b c = a ^^^ b ^^^ c ∧
    lop3Table 0xE8 a b c = (a &&& b) ||| (a &&& c) ||| (b &&& c) ∧
    lop3Table 0xCA a b c = (a &&& b) ||| (~~~a &&& c) ∧ lop3Table 0xEA a b c = (a &&& b) ||| c ∧
    lop3Table 0xA8 a b c = (a ||| b) &&& c ∧ lop3Table 0x01 a b c = ~~~(a ||| b ||| c) ∧
    lop3Table 0x02 a b c = ~~~a &&& ~~~b &&& c

/-- R190: the laws of the table: complement, and, or, exclusive or, the source's recipe read backwards, and the three
exchanges of operands. -/
def Obligations.Lop3Laws : Prop :=
  ∀ (va vb vc : BitVec 32) (l m : BitVec 8),
    lop3Table (~~~l) va vb vc = ~~~(lop3Table l va vb vc) ∧
    lop3Table (l &&& m) va vb vc = lop3Table l va vb vc &&& lop3Table m va vb vc ∧
    lop3Table (l ||| m) va vb vc = lop3Table l va vb vc ||| lop3Table m va vb vc ∧
    lop3Table (l ^^^ m) va vb vc = lop3Table l va vb vc ^^^ lop3Table m va vb vc ∧
    (lop3Table l 0xF0 0xCC 0xAA).toNat % 2 ^ 8 = l.toNat ∧
    ((∀ k, k < 8 → m.getLsbD k = l.getLsbD (if k = 1 then 2 else if k = 2 then 1 else if k = 5 then 6 else
      if k = 6 then 5 else k)) → lop3Table l va vc vb = lop3Table m va vb vc) ∧
    ((∀ k, k < 8 → m.getLsbD k = l.getLsbD (if k = 2 then 4 else if k = 4 then 2 else if k = 3 then 5 else
      if k = 5 then 3 else k)) → lop3Table l vb va vc = lop3Table m va vb vc) ∧
    ((∀ k, k < 8 → m.getLsbD k = l.getLsbD (if k = 1 then 4 else if k = 4 then 1 else if k = 3 then 6 else
      if k = 6 then 3 else k)) → lop3Table l vc vb va = lop3Table m va vb vc)

/-- R201: the funnel in terms of its two words: the source's formulas, with sub-shifts by 32 giving 0, for every effective
amount. -/
def Obligations.FunnelInWords : Prop :=
  ∀ (va vb : BitVec 32) (n : Nat), n ≤ 32 →
    funnelLeft va vb n = (vb <<< n) ||| (va >>> (32 - n)) ∧ funnelRight va vb n = (vb <<< (32 - n)) ||| (va >>> n)

/-- R206: the laws of `shf`, for every effective amount, and where the two modes agree and differ. -/
def Obligations.ShfLaws : Prop :=
  ∀ (va vb : BitVec 32),
    (funnelLeft va vb 0 = vb ∧ funnelLeft va vb 32 = va ∧ funnelRight va vb 0 = va ∧ funnelRight va vb 32 = vb) ∧
    (∀ n, n ≤ 32 → funnelLeft va vb n = funnelRight va vb (32 - n)) ∧
    (∀ n, n ≤ 32 → funnelRight va 0 n = va >>> n ∧ funnelLeft va 0 n = va >>> (32 - n)) ∧
    (∀ n, n ≤ 32 → funnelLeft 0 vb n = vb <<< n) ∧
    ∀ c : BitVec 32, (c.toNat < 32 → clampAmount 32 c = wrapAmount c) ∧ (32 ≤ c.toNat → clampAmount 32 c ≠ wrapAmount c)

/-- R207: with one value for `a` and `b` `shf` rotates it: in wrap mode by c mod 32, in clamp mode by c up to 32, and above
32 the value is unchanged. -/
def Obligations.ShfRotates : Prop :=
  ∀ (s : State) (d : RegName) (a c : Src) (v vc : BitVec 32),
    s.operand .w32 a = .ok v → s.operand .w32 c = .ok vc →
    Yields (.shfLWrapB32 d a a c) s .w32 d (v.rotateLeft (vc.toNat % 32)) ∧
    Yields (.shfRWrapB32 d a a c) s .w32 d (v.rotateRight (vc.toNat % 32)) ∧
    Yields (.shfLClampB32 d a a c) s .w32 d (if vc.toNat ≤ 32 then v.rotateLeft vc.toNat else v) ∧
    Yields (.shfRClampB32 d a a c) s .w32 d (if vc.toNat ≤ 32 then v.rotateRight vc.toNat else v)

/-- R208: `shf.l.clamp` on the words of a number from the top down, and `shl` on the lowest, compute the shift left of the
whole number of `k + 1` words by min(c, 32). -/
def Obligations.MultiWordLeftShift : Prop :=
  ∀ (w : Nat → BitVec 32) (k : Nat) (c : BitVec 32),
    (shlBits .w32 (w 0) c).toNat +
        ∑ j ∈ Finset.range k, (funnelLeft (w j) (w (j + 1)) (clampAmount 32 c)).toNat * 2 ^ (32 * (j + 1)) =
      (∑ j ∈ Finset.range (k + 1), (w j).toNat * 2 ^ (32 * j)) * 2 ^ (min c.toNat 32) % 2 ^ (32 * (k + 1))

/-- R209: `shf.r.clamp` on the words of a number from the bottom up, and `shr.u32` or `shr.s32` on the highest, compute the
logical or the arithmetic shift right of the whole number of `k + 1` words by min(c, 32). -/
def Obligations.MultiWordRightShift : Prop :=
  ∀ (w : Nat → BitVec 32) (k : Nat) (c : BitVec 32),
    (∑ j ∈ Finset.range k, (funnelRight (w j) (w (j + 1)) (clampAmount 32 c)).toNat * 2 ^ (32 * j)) +
        (shrZeroBits .w32 (w k) c).toNat * 2 ^ (32 * k) =
      (∑ j ∈ Finset.range (k + 1), (w j).toNat * 2 ^ (32 * j)) / 2 ^ (min c.toNat 32) ∧
    (∑ j ∈ Finset.range k, ((funnelRight (w j) (w (j + 1)) (clampAmount 32 c)).toNat : Int) * 2 ^ (32 * j)) +
        (shrSignBits .w32 (w k) c).toInt * 2 ^ (32 * k) =
      Int.fdiv ((∑ j ∈ Finset.range k, ((w j).toNat : Int) * 2 ^ (32 * j)) + (w k).toInt * 2 ^ (32 * k))
        (2 ^ (min c.toNat 32))

/-- R210: `shf.r.clamp.b32 r0, r0, r1, n` leaves in `r0` the bits n + 31 to n of the 64-bit value with `r1` high and the old
`r0` low, and for n of 32 or more the value of `r1`. -/
def Obligations.ShfExtractsField : Prop :=
  ∀ (s : State) (r0 r1 : RegName) (n : Src) (v0 v1 vn : BitVec 32),
    s.readReg .w32 r0 = some v0 → s.readReg .w32 r1 = some v1 → s.operand .w32 n = .ok vn →
    ∃ v, Yields (.shfRClampB32 r0 (.reg r0) (.reg r1) n) s .w32 r0 v ∧
      (vn.toNat < 32 → ∀ i, i < 32 → v.getLsbD i = (v1 ++ v0).getLsbD (i + vn.toNat)) ∧ (32 ≤ vn.toNat → v = v1)

/-- R224: the laws of `shl`. -/
def Obligations.ShlLaws : Prop :=
  ∀ (w : Width) (v : BitVec w.bits) (s t : BitVec 32),
    shlBits w v 0 = v ∧ (w.bits ≤ s.toNat → shlBits w v s = 0) ∧
    (s.toNat + t.toNat < 2 ^ 32 → shlBits w (shlBits w v s) t = shlBits w v (s + t)) ∧
    (w.bits ≤ s.toNat + t.toNat → shlBits w (shlBits w v s) t = 0) ∧
    (s.toNat < w.bits → (shlBits w v s).toNat = v.toNat * 2 ^ s.toNat % 2 ^ w.bits) ∧
    ∀ i, i < min s.toNat w.bits → (shlBits w v s).getLsbD i = false

/-- R241: the laws of `shr`, zero fill and sign fill. -/
def Obligations.ShrLaws : Prop :=
  ∀ (w : Width) (v : BitVec w.bits) (s t : BitVec 32),
    (shrZeroBits w v 0 = v ∧ shrSignBits w v 0 = v) ∧
    (w.bits ≤ s.toNat → shrZeroBits w v s = 0) ∧
    (s.toNat + t.toNat < 2 ^ 32 → shrZeroBits w (shrZeroBits w v s) t = shrZeroBits w v (s + t)) ∧
    (shrZeroBits w v s).toNat = v.toNat / 2 ^ s.toNat ∧ (shrZeroBits w v s).toNat ≤ v.toNat ∧
    (w.bits ≤ s.toNat → shrSignBits w v s = if v.getLsbD (w.bits - 1) then BitVec.allOnes w.bits else 0) ∧
    (shrSignBits w v s).getLsbD (w.bits - 1) = v.getLsbD (w.bits - 1) ∧
    (v.getLsbD (w.bits - 1) = false → shrSignBits w v s = shrZeroBits w v s) ∧
    (shrSignBits w v s).toInt = Int.fdiv v.toInt (2 ^ s.toNat) ∧
    (s.toNat < w.bits → (∀ i, i < w.bits - s.toNat → (shrZeroBits w v s).getLsbD i = (shrSignBits w v s).getLsbD i) ∧
      ∀ i, w.bits - s.toNat ≤ i → i < w.bits → v.getLsbD (w.bits - 1) = true →
        (shrZeroBits w v s).getLsbD i = false ∧ (shrSignBits w v s).getLsbD i = true)

end Statements
end

