-- ==== Sys2Proof/Laws/State.lean ====
section
/-! SUPPORT. One lemma per field per update of the state, and the laws of the register map: a write is read back, leaves
every other register alone, and keeps the canonical form. -/

namespace Sys2Proof.Machine

/-! ## Fields of an updated state -/

section fields
variable (s : State) (w : Width) (r : RegName) (v : BitVec w.bits)

@[simp] theorem advance_pc : s.advance.pc = s.pc + 1 := rfl
@[simp] theorem advance_regs : s.advance.regs = s.regs := rfl
@[simp] theorem advance_fault : s.advance.fault = s.fault := rfl
@[simp] theorem advance_params : s.advance.params = s.params := rfl
@[simp] theorem advance_readReg : s.advance.readReg w r = s.readReg w r := rfl

@[simp] theorem writeReg_pc : (s.writeReg w r v).pc = s.pc := rfl
@[simp] theorem writeReg_regs : (s.writeReg w r v).regs = s.regs.set r (Value.ofBits w v) := rfl
@[simp] theorem writeReg_fault : (s.writeReg w r v).fault = s.fault := rfl
@[simp] theorem writeReg_params : (s.writeReg w r v).params = s.params := rfl

@[simp] theorem raise_pc : (s.raiseUnwrittenRegisterRead r).pc = s.pc := rfl
@[simp] theorem raise_regs : (s.raiseUnwrittenRegisterRead r).regs = s.regs := rfl
@[simp] theorem raise_params : (s.raiseUnwrittenRegisterRead r).params = s.params := rfl
@[simp] theorem raise_fault :
    (s.raiseUnwrittenRegisterRead r).fault = some (.unwrittenRegisterRead s.pc r) := rfl

@[simp] theorem writeDstSink_pc (d : DstSink) : (s.writeDstSink w d v).pc = s.pc := by cases d <;> rfl
@[simp] theorem writeDstSink_fault (d : DstSink) : (s.writeDstSink w d v).fault = s.fault := by cases d <;> rfl
@[simp] theorem writeDstSink_params (d : DstSink) : (s.writeDstSink w d v).params = s.params := by cases d <;> rfl

end fields

/-! ## Values -/

@[simp] theorem bitsAt_ofBits (w : Width) (v : BitVec w.bits) : (Value.ofBits w v).bitsAt w = some v := by
  cases w <;> rfl

@[simp] theorem width_ofBits (w : Width) (v : BitVec w.bits) : (Value.ofBits w v).width = w := by
  cases w <;> rfl

/-- A value read at its own class gives its bits; at another class it gives none. -/
theorem bitsAt_isSome_iff (w : Width) (v : Value) : (∃ b, v.bitsAt w = some b) ↔ v.width = w := by
  cases v <;> cases w <;> simp [Value.bitsAt, Value.width]

theorem ofBits_of_bitsAt {w : Width} {v : Value} {b : BitVec w.bits} (h : v.bitsAt w = some b) :
    v = Value.ofBits w b := by
  cases v <;> cases w <;> simp_all [Value.bitsAt, Value.ofBits]

/-! ## The order of names -/

theorem nameLt_irrefl : ∀ r, nameLt r r = false
  | [] => rfl
  | a :: as => by simp [nameLt, nameLt_irrefl as]

theorem nameLt_trans : ∀ {a b c : RegName}, nameLt a b = true → nameLt b c = true → nameLt a c = true
  | _, [], _, h, _ => by simp [nameLt] at h
  | _, _ :: _, [], _, h => by simp [nameLt] at h
  | [], _ :: _, _ :: _, _, _ => rfl
  | x :: xs, y :: ys, z :: zs, h₁, h₂ => by
    simp only [nameLt, Bool.or_eq_true, Bool.and_eq_true, decide_eq_true_eq] at *
    rcases h₁ with h₁ | ⟨rfl, h₁⟩ <;> rcases h₂ with h₂ | ⟨rfl, h₂⟩
    · exact .inl (by omega)
    · exact .inl h₁
    · exact .inl h₂
    · exact .inr ⟨rfl, nameLt_trans h₁ h₂⟩

theorem nameLt_connected : ∀ {a b : RegName}, a ≠ b → nameLt a b = false → nameLt b a = true
  | [], [], h, _ => absurd rfl h
  | [], _ :: _, _, h => by simp [nameLt] at h
  | _ :: _, [], _, _ => rfl
  | x :: xs, y :: ys, hne, h => by
    simp only [nameLt, Bool.or_eq_false_iff, Bool.and_eq_false_iff, decide_eq_false_iff_not, Bool.or_eq_true,
      Bool.and_eq_true, decide_eq_true_eq] at *
    by_cases hxy : x = y
    · subst hxy
      refine .inr ⟨rfl, nameLt_connected (fun e => hne (by rw [e])) ?_⟩
      rcases h.2 with h' | h'
      · exact absurd rfl h'
      · exact h'
    · have : x.toNat ≠ y.toNat := fun e => hxy (Char.toNat_inj.mp e)
      exact .inl (by omega)

/-! ## The register map -/

@[simp] theorem get_set_same (f : RegFile) (r : RegName) (v : Value) : (f.set r v).get r = some v := by
  induction f with
  | nil => simp [RegFile.set, RegFile.get]
  | cons e rest ih =>
    obtain ⟨k, u⟩ := e
    by_cases hk : k = r
    · simp [RegFile.set, RegFile.get, hk]
    · by_cases hl : nameLt r k = true
      · simp [RegFile.set, RegFile.get, hk, hl]
      · simp [RegFile.set, RegFile.get, hk, hl, ih]

theorem get_set_of_ne (f : RegFile) {r q : RegName} (v : Value) (h : q ≠ r) : (f.set r v).get q = f.get q := by
  induction f with
  | nil => simp [RegFile.set, RegFile.get, Ne.symm h]
  | cons e rest ih =>
    obtain ⟨k, u⟩ := e
    by_cases hk : k = r
    · subst hk; simp [RegFile.set, RegFile.get, Ne.symm h]
    · by_cases hl : nameLt r k = true
      · simp [RegFile.set, RegFile.get, hk, hl, Ne.symm h]
      · simp [RegFile.set, RegFile.get, hk, hl, ih]

theorem above_of_lt {a b : RegName} (h : nameLt a b = true) :
    ∀ {f : RegFile}, f.above b = true → f.above a = true
  | [], _ => rfl
  | (k, _) :: rest, hf => by
    simp only [RegFile.above, Bool.and_eq_true] at *
    exact ⟨nameLt_trans h hf.1, above_of_lt h hf.2⟩

theorem above_set {a r : RegName} (v : Value) (h : nameLt a r = true) :
    ∀ {f : RegFile}, f.above a = true → (f.set r v).above a = true
  | [], _ => by simp [RegFile.set, RegFile.above, h]
  | (k, u) :: rest, hf => by
    simp only [RegFile.above, Bool.and_eq_true] at hf
    by_cases hk : k = r
    · simp [RegFile.set, RegFile.above, hk, h, hf.2]
    · by_cases hl : nameLt r k = true
      · simp [RegFile.set, RegFile.above, hk, hl, h, hf]
      · simp [RegFile.set, RegFile.above, hk, hl, hf.1, above_set v h hf.2]

/-- Every write keeps the canonical form of the register map. -/
theorem set_wf (r : RegName) (v : Value) : ∀ {f : RegFile}, f.wf = true → (f.set r v).wf = true
  | [], _ => rfl
  | (k, u) :: rest, hf => by
    simp only [RegFile.wf, Bool.and_eq_true] at hf
    by_cases hk : k = r
    · subst hk; simp [RegFile.set, RegFile.wf, hf]
    · by_cases hl : nameLt r k = true
      · simp [RegFile.set, RegFile.wf, RegFile.above, hk, hl, hf, above_of_lt hl hf.1]
      · have hkr : nameLt k r = true := nameLt_connected (Ne.symm hk) (by simpa using hl)
        simp [RegFile.set, RegFile.wf, hk, hl, set_wf r v hf.2, above_set v hkr hf.1]

/-! ## Registers of the state -/

@[simp] theorem readReg_writeReg_same (s : State) (w : Width) (r : RegName) (v : BitVec w.bits) :
    (s.writeReg w r v).readReg w r = some v := by
  simp [State.readReg]

theorem readReg_writeReg_of_ne (s : State) (w w' : Width) {r q : RegName} (v : BitVec w.bits) (h : q ≠ r) :
    (s.writeReg w r v).readReg w' q = s.readReg w' q := by
  simp [State.readReg, get_set_of_ne _ _ h]

end Sys2Proof.Machine
end

