-- ==== Sys2Proof/Laws/Operands.lean ====
section
/-! SUPPORT. What reading an operand can do, and the shift amounts as numbers. -/

namespace Sys2Proof.Machine

@[simp] theorem operand_imm (s : State) (w : Width) (v : Nat) : s.operand w (.imm v) = .ok (BitVec.ofNat w.bits v) := rfl

theorem operand_reg_of_some {s : State} {w : Width} {r : RegName} {v : BitVec w.bits} (h : s.readReg w r = some v) :
    s.operand w (.reg r) = .ok v := by
  simp [State.operand, h]

theorem operand_reg_of_none {s : State} {w : Width} {r : RegName} (h : s.readReg w r = none) :
    s.operand w (.reg r) = .error r := by
  simp [State.operand, h]

theorem operand_reg_ok_iff (s : State) (w : Width) (r : RegName) (v : BitVec w.bits) :
    s.operand w (.reg r) = .ok v ↔ s.readReg w r = some v := by
  cases h : s.readReg w r with
  | none => simp [operand_reg_of_none h]
  | some u => simp [operand_reg_of_some h]

/-- An operand fails to be read only where it is a register that holds no value of the class. -/
theorem operand_error_iff (s : State) (w : Width) (o : Src) (r : RegName) :
    s.operand w o = .error r ↔ o = .reg r ∧ s.readReg w r = none := by
  cases o with
  | imm v => simp
  | reg q =>
    cases h : s.readReg w q with
    | none =>
      simp only [operand_reg_of_none h, Except.error.injEq, Src.reg.injEq]
      exact ⟨fun e => ⟨e, e ▸ h⟩, And.left⟩
    | some v =>
      simp only [operand_reg_of_some h, reduceCtorEq, Src.reg.injEq, false_iff, not_and]
      rintro rfl
      simp [h]

theorem reading_ok {s : State} {w : Width} {o : Src} {v : BitVec w.bits}
    {go : BitVec w.bits → Host.Outcome State Fault Refusal} (h : s.operand w o = .ok v) :
    reading w o s go = go v := by
  simp [reading, h]

theorem reading_error {s : State} {w : Width} {o : Src} {r : RegName}
    {go : BitVec w.bits → Host.Outcome State Fault Refusal} (h : s.operand w o = .error r) :
    reading w o s go = .next (s.raiseUnwrittenRegisterRead r) := by
  simp [reading, h]

theorem clampAmount_le (n : Nat) (b : BitVec 32) : clampAmount n b ≤ n := Nat.min_le_right _ _

/-- The wrapped amount is the amount modulo 32. -/
theorem wrapAmount_eq_mod (c : BitVec 32) : wrapAmount c = c.toNat % 32 := by
  have : (0x1f#32).toNat = 2 ^ 5 - 1 := rfl
  rw [wrapAmount, BitVec.toNat_and, this, Nat.and_two_pow_sub_one_eq_mod]

end Sys2Proof.Machine
end

