-- ==== Sys2Proof/Laws/Exec.lean ====
section
/-! SUPPORT. Everything an instruction can do, said once for all forms: it reads its sources in order, raises the fault for
the first that holds no value, and otherwise writes values computed from the source values alone to its destinations and
moves on. Every frame, fault and completion fact about `exec` follows from `exec_form` and `exec_cases`. -/

namespace Sys2Proof.Machine

/-! ## One description of a statement -/

/-- The values of a list of sources, or the first register without one. -/
def operandValues (s : State) : List (Width × Src) → Except RegName (List Value)
  | [] => .ok []
  | (w, o) :: rest => match s.operand w o with
    | .error r => .error r
    | .ok v => match operandValues s rest with
      | .error r => .error r
      | .ok vs => .ok (Value.ofBits w v :: vs)

/-- Writes values to registers, in order. -/
def putAll : List (Width × RegName) → List Value → State → State
  | (_, d) :: ds, v :: vs, s => putAll ds vs { s with regs := s.regs.set d v }
  | _, _, s => s

/-- The statement that reads `rs`, computes `F` of the values read and writes the results to `ws`. -/
def formStep (rs : List (Width × Src)) (ws : List (Width × RegName)) (F : List Value → List Value) (s : State) :
    Host.Outcome State Fault Refusal :=
  match operandValues s rs with
  | .error r => .next (s.raiseUnwrittenRegisterRead r)
  | .ok vs => .next (putAll ws (F vs) s).advance

/-- `F` gives one value of the right class for each destination. -/
def FitsDests (ws : List (Width × RegName)) (F : List Value → List Value) : Prop :=
  ∀ vs, (F vs).map Value.width = ws.map Prod.fst

/-- The bits of a value at class `w`, zero where it is of another class. -/
def Value.bitsOr0 (w : Width) (v : Value) : BitVec w.bits :=
  (v.bitsAt w).getD 0

@[simp] theorem bitsOr0_ofBits (w : Width) (v : BitVec w.bits) : (Value.ofBits w v).bitsOr0 w = v := by
  simp [Value.bitsOr0]

theorem logic1_form (w : Width) (f : BitVec w.bits → BitVec w.bits) (d : RegName) (a : Src) :
    ∃ F, FitsDests [(w, d)] F ∧ ∀ s, logic1 w f d a s = formStep [(w, a)] [(w, d)] F s := by
  refine ⟨fun vs => match vs with | [x] => [.ofBits w (f (x.bitsOr0 w))] | _ => [.ofBits w 0], ?_, fun s => ?_⟩
  · intro vs; dsimp only; split <;> simp
  · cases ha : s.operand w a <;>
      simp [logic1, reading, formStep, operandValues, putAll, State.writeReg, *]

theorem logic2_form (w : Width) (f : BitVec w.bits → BitVec w.bits → BitVec w.bits) (d : RegName) (a b : Src) :
    ∃ F, FitsDests [(w, d)] F ∧ ∀ s, logic2 w f d a b s = formStep [(w, a), (w, b)] [(w, d)] F s := by
  refine ⟨fun vs => match vs with
    | [x, y] => [.ofBits w (f (x.bitsOr0 w) (y.bitsOr0 w))] | _ => [.ofBits w 0], ?_, fun s => ?_⟩
  · intro vs; dsimp only; split <;> simp
  · cases ha : s.operand w a <;> cases hb : s.operand w b <;>
      simp [logic2, reading, formStep, operandValues, putAll, State.writeReg, *]

theorem shift_form (w : Width) (f : BitVec w.bits → BitVec 32 → BitVec w.bits) (d : RegName) (a b : Src) :
    ∃ F, FitsDests [(w, d)] F ∧ ∀ s, shift w f d a b s = formStep [(w, a), (.w32, b)] [(w, d)] F s := by
  refine ⟨fun vs => match vs with
    | [x, y] => [.ofBits w (f (x.bitsOr0 w) (y.bitsOr0 .w32))] | _ => [.ofBits w 0], ?_, fun s => ?_⟩
  · intro vs; dsimp only; split <;> simp
  · cases ha : s.operand w a <;> cases hb : s.operand .w32 b <;>
      simp [shift, reading, formStep, operandValues, putAll, State.writeReg, *]

theorem funnel_form (amount : BitVec 32 → Nat) (sh : BitVec 32 → BitVec 32 → Nat → BitVec 32) (d : RegName) (a b c : Src) :
    ∃ F, FitsDests [(.w32, d)] F ∧
      ∀ s, funnel amount sh d a b c s = formStep [(.w32, a), (.w32, b), (.w32, c)] [(.w32, d)] F s := by
  refine ⟨fun vs => match vs with
    | [x, y, z] => [.ofBits .w32 (sh (x.bitsOr0 .w32) (y.bitsOr0 .w32) (amount (z.bitsOr0 .w32)))]
    | _ => [.ofBits .w32 0], ?_, fun s => ?_⟩
  · intro vs; dsimp only; split <;> simp
  · cases ha : s.operand .w32 a <;> cases hb : s.operand .w32 b <;> cases hc : s.operand .w32 c <;>
      simp [funnel, reading, formStep, operandValues, putAll, State.writeReg, *]

theorem lop3B32_form (d : RegName) (a b c : Src) (l : Nat) :
    ∃ F, FitsDests [(.w32, d)] F ∧
      ∀ s, execLop3B32 d a b c l s = formStep [(.w32, a), (.w32, b), (.w32, c)] [(.w32, d)] F s := by
  refine ⟨fun vs => match vs with
    | [x, y, z] =>
      [.ofBits .w32 (lop3Table (BitVec.ofNat 8 l) (x.bitsOr0 .w32) (y.bitsOr0 .w32) (z.bitsOr0 .w32))]
    | _ => [.ofBits .w32 0], ?_, fun s => ?_⟩
  · intro vs; dsimp only; split <;> simp
  · cases ha : s.operand .w32 a <;> cases hb : s.operand .w32 b <;> cases hc : s.operand .w32 c <;>
      simp [execLop3B32, reading, formStep, operandValues, putAll, State.writeReg, *]

/-- The destinations of `d|p`. -/
def pairDests : DstSink → RegName → List (Width × RegName)
  | .reg d, p => [(.w32, d), (.pred, p)]
  | .sink, p => [(.pred, p)]

theorem lop3Bool_form (op : BitVec 1 → BitVec 1 → BitVec 1) (d : DstSink) (p : RegName) (a b c : Src) (l : Nat) (q : Src) :
    ∃ F, FitsDests (pairDests d p) F ∧
      ∀ s, lop3Bool op d p a b c l q s =
        formStep [(.w32, a), (.w32, b), (.w32, c), (.pred, q)] (pairDests d p) F s := by
  cases d with
  | reg d =>
    refine ⟨fun vs => match vs with
      | [x, y, z, u] =>
        let r := lop3Table (BitVec.ofNat 8 l) (x.bitsOr0 .w32) (y.bitsOr0 .w32) (z.bitsOr0 .w32)
        [.ofBits .w32 r, .ofBits .pred (op (nonZero r) (u.bitsOr0 .pred))]
      | _ => [.ofBits .w32 0, .ofBits .pred 0], ?_, fun s => ?_⟩
    · intro vs; dsimp only; split <;> simp [pairDests]
    · cases ha : s.operand .w32 a <;> cases hb : s.operand .w32 b <;> cases hc : s.operand .w32 c <;>
        cases hq : s.operand .pred q <;>
        simp [lop3Bool, reading, formStep, operandValues, putAll, pairDests, State.writeReg, State.writeDstSink, *]
  | sink =>
    refine ⟨fun vs => match vs with
      | [x, y, z, u] =>
        let r := lop3Table (BitVec.ofNat 8 l) (x.bitsOr0 .w32) (y.bitsOr0 .w32) (z.bitsOr0 .w32)
        [.ofBits .pred (op (nonZero r) (u.bitsOr0 .pred))]
      | _ => [.ofBits .pred 0], ?_, fun s => ?_⟩
    · intro vs; dsimp only; split <;> simp [pairDests]
    · cases ha : s.operand .w32 a <;> cases hb : s.operand .w32 b <;> cases hc : s.operand .w32 c <;>
        cases hq : s.operand .pred q <;>
        simp [lop3Bool, reading, formStep, operandValues, putAll, pairDests, State.writeReg, State.writeDstSink, *]

/-- Every form is such a statement over its own table of operands (R34). -/
theorem exec_form (i : Instr) :
    ∃ F, FitsDests i.writes F ∧ ∀ s, exec i s = formStep i.reads i.writes F s := by
  cases i with
  | andPred d a b => exact logic2_form _ _ d a b
  | andB16 d a b => exact logic2_form _ _ d a b
  | andB32 d a b => exact logic2_form _ _ d a b
  | andB64 d a b => exact logic2_form _ _ d a b
  | orPred d a b => exact logic2_form _ _ d a b
  | orB16 d a b => exact logic2_form _ _ d a b
  | orB32 d a b => exact logic2_form _ _ d a b
  | orB64 d a b => exact logic2_form _ _ d a b
  | xorPred d a b => exact logic2_form _ _ d a b
  | xorB16 d a b => exact logic2_form _ _ d a b
  | xorB32 d a b => exact logic2_form _ _ d a b
  | xorB64 d a b => exact logic2_form _ _ d a b
  | notPred d a => exact logic1_form _ _ d a
  | notB16 d a => exact logic1_form _ _ d a
  | notB32 d a => exact logic1_form _ _ d a
  | notB64 d a => exact logic1_form _ _ d a
  | cnotB16 d a => exact logic1_form _ _ d a
  | cnotB32 d a => exact logic1_form _ _ d a
  | cnotB64 d a => exact logic1_form _ _ d a
  | lop3B32 d a b c l => exact lop3B32_form d a b c l
  | lop3OrB32 d p a b c l q =>
    cases d with
    | reg d => exact lop3Bool_form boolOr (.reg d) p a b c l q
    | sink => exact lop3Bool_form boolOr .sink p a b c l q
  | lop3AndB32 d p a b c l q =>
    cases d with
    | reg d => exact lop3Bool_form boolAnd (.reg d) p a b c l q
    | sink => exact lop3Bool_form boolAnd .sink p a b c l q
  | shfLClampB32 d a b c => exact funnel_form _ _ d a b c
  | shfLWrapB32 d a b c => exact funnel_form _ _ d a b c
  | shfRClampB32 d a b c => exact funnel_form _ _ d a b c
  | shfRWrapB32 d a b c => exact funnel_form _ _ d a b c
  | shlB16 d a b => exact shift_form _ _ d a b
  | shlB32 d a b => exact shift_form _ _ d a b
  | shlB64 d a b => exact shift_form _ _ d a b
  | shrB16 d a b => exact shift_form _ _ d a b
  | shrB32 d a b => exact shift_form _ _ d a b
  | shrB64 d a b => exact shift_form _ _ d a b
  | shrU16 d a b => exact shift_form _ _ d a b
  | shrU32 d a b => exact shift_form _ _ d a b
  | shrU64 d a b => exact shift_form _ _ d a b
  | shrS16 d a b => exact shift_form _ _ d a b
  | shrS32 d a b => exact shift_form _ _ d a b
  | shrS64 d a b => exact shift_form _ _ d a b

/-! ## What follows from it -/

theorem operandValues_error_iff (s : State) (r : RegName) :
    ∀ rs, operandValues s rs = .error r ↔ firstUnread s rs = some r
  | [] => by simp [operandValues, firstUnread]
  | (w, o) :: rest => by
    cases h : s.operand w o with
    | error q => simp [operandValues, firstUnread, h]
    | ok v =>
      simp only [operandValues, firstUnread, h, ← operandValues_error_iff s r rest]
      cases operandValues s rest <;> simp

theorem operandValues_ok_iff (s : State) :
    ∀ rs, (∃ vs, operandValues s rs = .ok vs) ↔ firstUnread s rs = none
  | [] => by simp [operandValues, firstUnread]
  | (w, o) :: rest => by
    cases h : s.operand w o with
    | error q => simp [operandValues, firstUnread, h]
    | ok v =>
      simp only [operandValues, firstUnread, h, ← operandValues_ok_iff s rest]
      cases operandValues s rest <;> simp

@[simp] theorem putAll_pc : ∀ (ws : List (Width × RegName)) (vs : List Value) (s : State), (putAll ws vs s).pc = s.pc
  | [], _, _ => rfl
  | _ :: _, [], _ => rfl
  | _ :: ws, _ :: vs, _ => putAll_pc ws vs _

@[simp] theorem putAll_fault : ∀ (ws : List (Width × RegName)) (vs : List Value) (s : State),
    (putAll ws vs s).fault = s.fault
  | [], _, _ => rfl
  | _ :: _, [], _ => rfl
  | _ :: ws, _ :: vs, _ => putAll_fault ws vs _

@[simp] theorem putAll_params : ∀ (ws : List (Width × RegName)) (vs : List Value) (s : State),
    (putAll ws vs s).params = s.params
  | [], _, _ => rfl
  | _ :: _, [], _ => rfl
  | _ :: ws, _ :: vs, _ => putAll_params ws vs _

theorem putAll_wf : ∀ (ws : List (Width × RegName)) (vs : List Value) (s : State),
    s.regs.wf = true → (putAll ws vs s).regs.wf = true
  | [], _, _, h => h
  | _ :: _, [], _, h => h
  | _ :: ws, _ :: vs, _, h => putAll_wf ws vs _ (set_wf _ _ h)

theorem putAll_get_of_not_mem {r : RegName} : ∀ (ws : List (Width × RegName)) (vs : List Value) (s : State),
    r ∉ ws.map Prod.snd → (putAll ws vs s).regs.get r = s.regs.get r
  | [], _, _, _ => rfl
  | _ :: _, [], _, _ => rfl
  | (_, d) :: ws, v :: vs, s, h => by
    simp only [List.map_cons, List.mem_cons, not_or] at h
    rw [putAll, putAll_get_of_not_mem ws vs _ h.2]
    exact get_set_of_ne _ _ h.1

/-- Every destination holds a value after the writes, at the class of a position that names it. -/
theorem putAll_get_of_mem {r : RegName} : ∀ (ws : List (Width × RegName)) (vs : List Value) (s : State),
    vs.map Value.width = ws.map Prod.fst → r ∈ ws.map Prod.snd →
    ∃ u, (putAll ws vs s).regs.get r = some u ∧ (u.width, r) ∈ ws
  | [], _, _, _, h => by simp at h
  | _ :: _, [], _, hw, _ => by simp at hw
  | (w, d) :: ws, v :: vs, s, hw, h => by
    simp only [List.map_cons, List.cons.injEq] at hw
    by_cases hr : r ∈ ws.map Prod.snd
    · obtain ⟨u, hu, hm⟩ := putAll_get_of_mem ws vs { s with regs := s.regs.set d v } hw.2 hr
      exact ⟨u, hu, List.mem_cons_of_mem _ hm⟩
    · obtain rfl : r = d := by simpa [hr] using h
      exact ⟨v, by rw [putAll, putAll_get_of_not_mem ws vs _ hr]; simp, by simp [hw.1]⟩

/-- What is written does not depend on the state written to. -/
theorem putAll_get_congr {r : RegName} : ∀ (ws : List (Width × RegName)) (vs : List Value) (s t : State),
    vs.length = ws.length → (r ∈ ws.map Prod.snd ∨ s.regs.get r = t.regs.get r) →
    (putAll ws vs s).regs.get r = (putAll ws vs t).regs.get r
  | [], _, _, _, _, h => by simpa [putAll] using h
  | _ :: _, [], _, _, hl, _ => by simp at hl
  | (_, d) :: ws, v :: vs, s, t, hl, h => by
    refine putAll_get_congr ws vs _ _ (by simpa using hl) ?_
    by_cases hr : r = d
    · subst hr; exact .inr (by simp)
    · simp only [List.map_cons, List.mem_cons, hr, false_or] at h
      exact h.imp id fun h => by simpa [get_set_of_ne _ _ hr] using h

/-- What executing an instruction does: the fault for its first source without a value, or its own effect, which writes its
destinations only, each with a value of its class. It never answers a fault or a refusal. -/
theorem exec_cases (i : Instr) (s : State) :
    (∃ r, firstUnread s i.reads = some r ∧ exec i s = .next (s.raiseUnwrittenRegisterRead r)) ∨
    (firstUnread s i.reads = none ∧ ∃ t, exec i s = .next t ∧ t.pc = s.pc + 1 ∧ OnlyWrites s t (destNames i) ∧
      (s.regs.wf = true → t.regs.wf = true) ∧
      ∀ r ∈ destNames i, ∃ u, t.regs.get r = some u ∧ (u.width, r) ∈ i.writes) := by
  obtain ⟨F, hF, hexec⟩ := exec_form i
  cases h : operandValues s i.reads with
  | error r => exact .inl ⟨r, (operandValues_error_iff s r _).mp h, by simp [hexec, formStep, h]⟩
  | ok vs =>
    refine .inr ⟨(operandValues_ok_iff s _).mp ⟨vs, h⟩, (putAll i.writes (F vs) s).advance, ?_, ?_, ?_, ?_, ?_⟩
    · simp [hexec, formStep, h]
    · simp
    · exact ⟨by simp, by simp, fun r hr => putAll_get_of_not_mem _ _ _ hr⟩
    · exact putAll_wf _ _ _
    · exact fun r hr => putAll_get_of_mem _ _ _ (hF vs) hr

/-- What an instruction computes depends on the values of its sources alone. -/
theorem exec_congr {i : Instr} {s₁ s₂ : State} (h : operandValues s₁ i.reads = operandValues s₂ i.reads)
    (hn : firstUnread s₁ i.reads = none) :
    ∃ t₁ t₂, exec i s₁ = .next t₁ ∧ exec i s₂ = .next t₂ ∧
      ∀ r, (r ∈ destNames i ∨ s₁.regs.get r = s₂.regs.get r) → t₁.regs.get r = t₂.regs.get r := by
  obtain ⟨F, hF, hexec⟩ := exec_form i
  obtain ⟨vs, hvs⟩ := (operandValues_ok_iff s₁ _).mpr hn
  refine ⟨_, _, by rw [hexec, formStep, hvs], by rw [hexec, formStep, ← h, hvs], fun r hr => ?_⟩
  have hl : (F vs).length = i.writes.length := by simpa using congrArg List.length (hF vs)
  exact putAll_get_congr _ _ s₁ s₂ hl hr

/-- The values of a list of sources depend on the registers it names alone. -/
theorem operandValues_congr {s₁ s₂ : State} : ∀ {rs : List (Width × Src)},
    (∀ x ∈ rs, s₁.operand x.1 x.2 = s₂.operand x.1 x.2) → operandValues s₁ rs = operandValues s₂ rs
  | [], _ => rfl
  | (w, o) :: rest, h => by
    have h1 := h (w, o) (by simp)
    dsimp only at h1
    simp only [operandValues, h1, operandValues_congr fun x hx => h x (List.mem_cons_of_mem _ hx)]

theorem exec_of_firstUnread_some {i : Instr} {s : State} {r : RegName} (h : firstUnread s i.reads = some r) :
    exec i s = .next (s.raiseUnwrittenRegisterRead r) := by
  rcases exec_cases i s with ⟨q, hq, he⟩ | ⟨hn, _⟩
  · rw [h] at hq; cases hq; exact he
  · rw [h] at hn; cases hn

/-- A source reported as unread is a register operand that holds no value of its class. -/
theorem mem_of_firstUnread {s : State} {r : RegName} : ∀ {rs : List (Width × Src)}, firstUnread s rs = some r →
    ∃ w, (w, Src.reg r) ∈ rs ∧ s.readReg w r = none
  | [], h => by simp [firstUnread] at h
  | (w, o) :: rest, h => by
    cases ho : s.operand w o with
    | error q =>
      simp only [firstUnread, ho, Option.some.injEq] at h
      subst h
      obtain ⟨rfl, hr⟩ := (operand_error_iff s w o _).mp ho
      exact ⟨w, by simp, hr⟩
    | ok v =>
      simp only [firstUnread, ho] at h
      obtain ⟨w', hm, hr⟩ := mem_of_firstUnread h
      exact ⟨w', List.mem_cons_of_mem _ hm, hr⟩

end Sys2Proof.Machine
end

