-- ==== Sys2Proof/Laws/Values.lean ====
section
/-! SUPPORT. The values the shared operations compute, as bits and as numbers (spec/00_scope.md R10 to R16): the table look-up
of `lop3`, the funnel of `shf`, the shifts of `shl` and `shr`, and the Booleans of `.BoolOp`. -/

namespace Sys2Proof.Machine

/-! ## `lop3` -/

theorem tableIndex_lt (x y z : Bool) : 4 * x.toNat + 2 * y.toNat + z.toNat < 8 := by
  revert x y z; decide

/-- The look-up in a table given as a number reads that number's bit. -/
theorem lop3Bit_ofNat (l : Nat) (x y z : Bool) :
    lop3Bit (BitVec.ofNat 8 l) x y z = l.testBit (4 * x.toNat + 2 * y.toNat + z.toNat) := by
  rw [lop3Bit, BitVec.getLsbD_ofNat]; simp [tableIndex_lt]

theorem lop3Bits_getLsbD (lut : BitVec 8) (va vb vc : BitVec 32) (n : Nat) (hn : n ≤ 32) (i : Nat) :
    (lop3Bits lut va vb vc n).getLsbD i =
      (decide (i < n) && lop3Bit lut (va.getLsbD i) (vb.getLsbD i) (vc.getLsbD i)) := by
  induction n with
  | zero => simp [lop3Bits]
  | succ n ih =>
    rw [lop3Bits, BitVec.getLsbD_or, ih (by omega), BitVec.getLsbD_shiftLeft, BitVec.getLsbD_setWidth,
      BitVec.getLsbD_ofBool]
    rcases Nat.lt_trichotomy i n with h | rfl | h
    · have h1 : i < n + 1 := by omega
      have h2 : i < 32 := by omega
      simp [h, h1]
    · simp; omega
    · have h1 : ¬ i < n := by omega
      have h2 : ¬ i < n + 1 := by omega
      have h3 : i - n ≠ 0 := by omega
      simp [h1, h2, h3]

/-- Every bit of the result is its own look-up. -/
theorem lop3Table_getLsbD (lut : BitVec 8) (va vb vc : BitVec 32) (i : Nat) (hi : i < 32) :
    (lop3Table lut va vb vc).getLsbD i = lop3Bit lut (va.getLsbD i) (vb.getLsbD i) (vc.getLsbD i) := by
  rw [lop3Table, lop3Bits_getLsbD _ _ _ _ _ (Nat.le_refl _)]; simp [hi]

/-! ## `.BoolOp` -/

theorem bit_cases (v : BitVec 1) : v = 0#1 ∨ v = 1#1 := by revert v; decide

theorem boolOr_nonZero (r : BitVec 32) (v : BitVec 1) :
    boolOr (nonZero r) v = if r.toNat ≠ 0 ∨ v.toNat = 1 then 1#1 else 0#1 := by
  by_cases h : r = 0
  · subst h; rcases bit_cases v with rfl | rfl <;> rfl
  · have : r.toNat ≠ 0 := fun e => h (by simpa [BitVec.toNat_eq] using e)
    rw [nonZero, if_neg h]; rcases bit_cases v with rfl | rfl <;> simp [this, boolOr]

theorem boolAnd_nonZero (r : BitVec 32) (v : BitVec 1) :
    boolAnd (nonZero r) v = if r.toNat ≠ 0 ∧ v.toNat = 1 then 1#1 else 0#1 := by
  by_cases h : r = 0
  · subst h; rcases bit_cases v with rfl | rfl <;> rfl
  · have : r.toNat ≠ 0 := fun e => h (by simpa [BitVec.toNat_eq] using e)
    rw [nonZero, if_neg h]; rcases bit_cases v with rfl | rfl <;> simp [this, boolAnd]

/-! ## `shf` -/

/-- The 64-bit value of the funnel (R201). -/
theorem funnel_append_toNat (va vb : BitVec 32) : (vb ++ va : BitVec 64).toNat = vb.toNat * 2 ^ 32 + va.toNat := by
  rw [BitVec.toNat_append, Nat.shiftLeft_eq, Nat.mul_comm, Nat.two_pow_add_eq_or_of_lt va.isLt]

theorem funnelLeft_toNat (va vb : BitVec 32) (n : Nat) :
    (funnelLeft va vb n).toNat = (vb.toNat * 2 ^ 32 + va.toNat) * 2 ^ n % 2 ^ 64 / 2 ^ 32 := by
  rw [funnelLeft, BitVec.extractLsb'_toNat, BitVec.toNat_shiftLeft, funnel_append_toNat, Nat.shiftLeft_eq,
    Nat.shiftRight_eq_div_pow]
  exact Nat.mod_eq_of_lt (Nat.div_lt_of_lt_mul (Nat.mod_lt _ (by norm_num)))

theorem funnelRight_toNat (va vb : BitVec 32) (n : Nat) :
    (funnelRight va vb n).toNat = (vb.toNat * 2 ^ 32 + va.toNat) / 2 ^ n % 2 ^ 32 := by
  rw [funnelRight, BitVec.extractLsb'_toNat, BitVec.toNat_ushiftRight, funnel_append_toNat, Nat.shiftRight_eq_div_pow,
    Nat.shiftRight_eq_div_pow, pow_zero, Nat.div_one]

/-- Every bit of `shf.l` is a bit of `a` or of `b` (R201). -/
theorem funnelLeft_getLsbD (va vb : BitVec 32) (n i : Nat) (hn : n ≤ 32) (hi : i < 32) :
    (funnelLeft va vb n).getLsbD i = if i < n then va.getLsbD (32 + i - n) else vb.getLsbD (i - n) := by
  simp only [funnelLeft, BitVec.getLsbD_extractLsb', BitVec.getLsbD_shiftLeft, BitVec.getLsbD_append, hi]
  have h1 : 32 + i < 64 := by omega
  have h2 : ¬ 32 + i < n := by omega
  by_cases h : i < n
  · have h3 : 32 + i - n < 32 := by omega
    simp [h1, h2, h3, h]
  · have h3 : ¬ 32 + i - n < 32 := by omega
    have h4 : 32 + i - n - 32 = i - n := by omega
    simp [h1, h2, h3, h, h4]

/-- Every bit of `shf.r` is a bit of `a` or of `b` (R201). -/
theorem funnelRight_getLsbD (va vb : BitVec 32) (n i : Nat) (hi : i < 32) :
    (funnelRight va vb n).getLsbD i = if n + i < 32 then va.getLsbD (n + i) else vb.getLsbD (n + i - 32) := by
  simp only [funnelRight, BitVec.getLsbD_extractLsb', BitVec.getLsbD_ushiftRight, BitVec.getLsbD_append, hi]
  by_cases h : n + i < 32 <;> simp [h]

/-! ## `shl` and `shr` -/

theorem shlBits_toNat (w : Width) (v : BitVec w.bits) (s : BitVec 32) :
    (shlBits w v s).toNat = v.toNat * 2 ^ (min s.toNat w.bits) % 2 ^ w.bits := by
  rw [shlBits, clampAmount, BitVec.toNat_shiftLeft, Nat.shiftLeft_eq]

theorem shrZeroBits_toNat (w : Width) (v : BitVec w.bits) (s : BitVec 32) :
    (shrZeroBits w v s).toNat = v.toNat / 2 ^ (min s.toNat w.bits) := by
  rw [shrZeroBits, clampAmount, BitVec.toNat_ushiftRight, Nat.shiftRight_eq_div_pow]

theorem shrSignBits_toInt (w : Width) (v : BitVec w.bits) (s : BitVec 32) :
    (shrSignBits w v s).toInt = Int.fdiv v.toInt (2 ^ (min s.toNat w.bits)) := by
  rw [shrSignBits, clampAmount, BitVec.toInt_sshiftRight, Int.shiftRight_eq_div_pow,
    Int.fdiv_eq_ediv_of_nonneg _ (by positivity)]
  push_cast; rfl

end Sys2Proof.Machine
end

