-- ==== Sys2Proof/Laws/Forms.lean ====
section
/-! SUPPORT. What each format answers on operands that can be read, and that it changes nothing but its destinations and
`pc`. -/

namespace Sys2Proof.Machine

/-- A write to one register, and the move past the statement, change nothing else. -/
theorem onlyWrites_writeReg (s : State) (w : Width) (d : RegName) (v : BitVec w.bits) :
    OnlyWrites s (s.writeReg w d v).advance [d] := by
  refine ⟨rfl, rfl, fun r hr => ?_⟩
  simp only [List.mem_singleton] at hr
  simp [get_set_of_ne _ _ hr]

/-- A statement that answers this state yields the value. -/
theorem yields_of_next {i : Instr} {s : State} {w : Width} {d : RegName} {v : BitVec w.bits}
    (h : exec i s = .next (s.writeReg w d v).advance) : Yields i s w d v :=
  ⟨_, h, by simp, by simp, onlyWrites_writeReg s w d v⟩

section forms
variable {s : State} {d : RegName} {a b c q : Src}

theorem logic1_next {w : Width} (f : BitVec w.bits → BitVec w.bits) {va : BitVec w.bits}
    (ha : s.operand w a = .ok va) : logic1 w f d a s = .next (s.writeReg w d (f va)).advance := by
  rw [logic1, reading_ok ha]

theorem logic2_next {w : Width} (f : BitVec w.bits → BitVec w.bits → BitVec w.bits) {va vb : BitVec w.bits}
    (ha : s.operand w a = .ok va) (hb : s.operand w b = .ok vb) :
    logic2 w f d a b s = .next (s.writeReg w d (f va vb)).advance := by
  rw [logic2, reading_ok ha, reading_ok hb]

theorem shift_next {w : Width} (f : BitVec w.bits → BitVec 32 → BitVec w.bits) {va : BitVec w.bits} {vb : BitVec 32}
    (ha : s.operand w a = .ok va) (hb : s.operand .w32 b = .ok vb) :
    shift w f d a b s = .next (s.writeReg w d (f va vb)).advance := by
  rw [shift, reading_ok ha, reading_ok hb]

variable {va vb vc : BitVec 32} (ha : s.operand .w32 a = .ok va) (hb : s.operand .w32 b = .ok vb)
  (hc : s.operand .w32 c = .ok vc)
include ha hb hc

theorem funnel_next (amount : BitVec 32 → Nat) (f : BitVec 32 → BitVec 32 → Nat → BitVec 32) :
    funnel amount f d a b c s = .next (s.writeReg .w32 d (f va vb (amount vc))).advance := by
  rw [funnel, reading_ok ha, reading_ok hb, reading_ok hc]

theorem execLop3B32_next (l : Nat) :
    execLop3B32 d a b c l s = .next (s.writeReg .w32 d (lop3Table (BitVec.ofNat 8 l) va vb vc)).advance := by
  rw [execLop3B32, reading_ok ha, reading_ok hb, reading_ok hc]

theorem lop3Bool_next (op : BitVec 1 → BitVec 1 → BitVec 1) (d : DstSink) (p : RegName) (l : Nat) {vq : BitVec 1}
    (hq : s.operand .pred q = .ok vq) :
    lop3Bool op d p a b c l q s =
      .next (((s.writeDstSink .w32 d (lop3Table (BitVec.ofNat 8 l) va vb vc)).writeReg .pred p
        (op (nonZero (lop3Table (BitVec.ofNat 8 l) va vb vc)) vq)).advance) := by
  rw [lop3Bool, reading_ok ha, reading_ok hb, reading_ok hc, reading_ok hq]

end forms

/-! ## The two destinations of `.BoolOp` -/

section pair
variable (s : State) (d : DstSink) (p : RegName) (r : BitVec 32) (v : BitVec 1)

theorem onlyWrites_pair :
    OnlyWrites s ((s.writeDstSink .w32 d r).writeReg .pred p v).advance (dstSinkNames d ++ [p]) := by
  refine ⟨by simp, by simp, fun x hx => ?_⟩
  simp only [List.mem_append, List.mem_singleton, not_or] at hx
  rw [advance_regs, writeReg_regs, get_set_of_ne _ _ hx.2]
  cases d with
  | sink => rfl
  | reg d => simp only [dstSinkNames, List.mem_singleton] at hx; exact get_set_of_ne _ _ hx.1

theorem readReg_pair_d (h : d ≠ .reg p) :
    ∀ x ∈ dstSinkNames d, ((s.writeDstSink .w32 d r).writeReg .pred p v).advance.readReg .w32 x = some r := by
  cases d with
  | sink => simp [dstSinkNames]
  | reg d =>
    have hne : d ≠ p := fun e => h (by rw [e])
    simp only [dstSinkNames, List.mem_singleton, forall_eq]
    rw [advance_readReg, readReg_writeReg_of_ne _ _ _ _ hne]
    exact readReg_writeReg_same s .w32 d r

end pair

end Sys2Proof.Machine
end

