-- ==== Sys2Proof/Laws/WellFormed.lean ====
section
/-! SUPPORT. What the checks of a term say, once: the checks of each kind of position, and `check` as a whole, as the
conditions of spec/30_encoding.md R84 to R89 on the operands of the term. -/

namespace Sys2Proof.Machine

/-- A register is accepted at a position exactly where it is a name declared at that class. -/
theorem checkReg_eq_none (p : Params) (w : Width) (r : RegName) : p.checkReg w r = none ↔ RegAt p w r := by
  unfold Params.checkReg RegAt
  by_cases hr : r = ['_']
  · subst hr; simp [show isRegName ['_'] = false from rfl]
  · cases hn : isRegName r
    · simp [hr]
    · cases hd : p.decl.classOf r with
      | none => simp [hr]
      | some w' => by_cases hw : w' = w <;> simp [hr, hw]

/-- A source operand is accepted exactly where it is legal at its position. -/
theorem checkSrc_eq_none (p : Params) (w : Width) (o : Src) : p.checkSrc w o = none ↔ SrcAt p w o := by
  cases o with
  | reg r => simp [Params.checkSrc, SrcAt, checkReg_eq_none]
  | imm v =>
    by_cases hw : w = .pred
    · simp [Params.checkSrc, SrcAt, hw]
    · by_cases hv : v < 2 ^ w.bits <;> simp [Params.checkSrc, SrcAt, hw, hv]

theorem checkWrites_eq_none (p : Params) : ∀ ws, p.checkWrites ws = none ↔ ∀ x ∈ ws, RegAt p x.1 x.2
  | [] => by simp [Params.checkWrites]
  | (w, d) :: rest => by
    have hd := checkReg_eq_none p w d
    cases h : p.checkReg w d <;> simp_all [Params.checkWrites, checkWrites_eq_none p rest]

theorem checkReads_eq_none (p : Params) : ∀ rs, p.checkReads rs = none ↔ ∀ x ∈ rs, SrcAt p x.1 x.2
  | [] => by simp [Params.checkReads]
  | (w, o) :: rest => by
    have ho := checkSrc_eq_none p w o
    cases h : p.checkSrc w o <;> simp_all [Params.checkReads, checkReads_eq_none p rest]

theorem checkLut_eq_none (l : Option Nat) : checkLut l = none ↔ ∀ v, l = some v → v < 256 := by
  cases l with
  | none => simp [checkLut]
  | some v => by_cases h : v < 256 <;> simp [checkLut, h]

/-- A term is well formed exactly where its requirement is met, each destination and each source is legal at its position,
and `immLut` fits in eight bits. -/
theorem wellFormed_iff (p : Params) (i : Instr) :
    i.WellFormed p ↔ p.admits i.gate = true ∧ (∀ x ∈ i.writes, RegAt p x.1 x.2) ∧ (∀ x ∈ i.reads, SrcAt p x.1 x.2) ∧
      ∀ v, i.lut? = some v → v < 256 := by
  have hw := checkWrites_eq_none p i.writes
  have hr := checkReads_eq_none p i.reads
  have hl := checkLut_eq_none i.lut?
  unfold Instr.WellFormed Instr.check
  cases ha : p.admits i.gate
  · simp
  · cases h1 : p.checkWrites i.writes <;> cases h2 : p.checkReads i.reads <;> simp_all

theorem checkAll_eq_none (p : Params) : ∀ is, p.checkAll is = none ↔ ∀ i ∈ is, i.WellFormed p
  | [] => by simp [Params.checkAll]
  | i :: rest => by
    cases h : i.check p <;> simp_all [Params.checkAll, Instr.WellFormed, checkAll_eq_none p rest]

/-- The requirement of a form is met exactly where the version and the target are high enough. -/
theorem admits_iff (p : Params) (v : PtxVersion) (t : Nat) :
    p.admits ⟨v, t⟩ = true ↔ Allows p v.major v.minor t := by
  simp only [Params.admits, PtxVersion.atLeast, Allows, Bool.and_eq_true, Bool.or_eq_true, decide_eq_true_eq]
  constructor
  · rintro ⟨h | ⟨h1, h2⟩, h3⟩
    · exact ⟨.inl h, h3⟩
    · exact ⟨.inr ⟨h1.symm, h2⟩, h3⟩
  · rintro ⟨h | ⟨h1, h2⟩, h3⟩
    · exact ⟨.inl h, h3⟩
    · exact ⟨.inr ⟨h1.symm, h2⟩, h3⟩

/-- The statements of a well-formed program are its transcription, every one well formed. -/
theorem statements_eq_ok (p : Params) (prog : List Instr) :
    p.statements = .ok prog ↔ transcribe p.program = .ok prog ∧ ∀ i ∈ prog, i.WellFormed p := by
  have h := fun is => checkAll_eq_none p is
  unfold Params.statements
  cases ht : transcribe p.program with
  | error e => simp
  | ok is =>
    cases hc : p.checkAll is with
    | none =>
      simp only [hc, Except.ok.injEq, iff_self_and]
      rintro rfl
      exact (h _).mp hc
    | some e =>
      simp only [hc, Except.ok.injEq, reduceCtorEq, false_iff, not_and]
      rintro rfl hx
      rw [(h _).mpr hx] at hc
      cases hc

end Sys2Proof.Machine
end

