-- ==== Sys2Proof/Laws/Step.lean ====
section
/-! SUPPORT. What a step and a run can do, said once: the inversion of `fetch` and `step`, the two cases of a step that
answers a next state, runs cut into steps, and the induction that carries a property kept by every step along a run. -/

namespace Sys2Proof.Machine

/-- The statement fetched is the one at `pc` of the well-formed program. -/
theorem fetch_eq_ok (s : State) (i : Instr) :
    s.fetch = .ok i ↔ ∃ prog, s.params.statements = .ok prog ∧ prog[s.pc]? = some i := by
  unfold State.fetch
  cases hst : s.params.statements with
  | error e => simp
  | ok prog =>
    cases hi : prog[s.pc]? with
    | some j => simp only [hi]; simp [hi]
    | none => simp only [hi]; by_cases hl : s.pc = prog.length <;> simp [hl, hi]

/-- A step answers a next state exactly where no fault is set and the statement at `pc` does. -/
theorem step_eq_next (s t : State) :
    step s = .next t ↔ s.fault = none ∧ ∃ i, s.fetch = .ok i ∧ exec i s = .next t := by
  unfold step
  cases hf : s.fault with
  | some f => simp
  | none => cases hi : s.fetch <;> simp

theorem step_of_fault {s : State} {f : Fault} (h : s.fault = some f) : step s = .fault f := by
  simp [step, h]

theorem step_of_fetch {s : State} {i : Instr} (hf : s.fault = none) (h : s.fetch = .ok i) : step s = exec i s := by
  simp [step, hf, h]

/-- A step either faults on the first source of the statement that holds no value of its class, and changes only the fault
mark, or completes and writes only the statement's destinations. -/
theorem step_cases {s t : State} (h : step s = .next t) :
    ∃ prog i, s.fault = none ∧ s.params.statements = .ok prog ∧ prog[s.pc]? = some i ∧ exec i s = .next t ∧
      ((∃ r, firstUnread s i.reads = some r ∧ t = s.raiseUnwrittenRegisterRead r) ∨
       (firstUnread s i.reads = none ∧ t.pc = s.pc + 1 ∧ OnlyWrites s t (destNames i) ∧
        (s.regs.wf = true → t.regs.wf = true) ∧
        ∀ r ∈ destNames i, ∃ u, t.regs.get r = some u ∧ (u.width, r) ∈ i.writes)) := by
  obtain ⟨hf, i, hi, he⟩ := (step_eq_next s t).mp h
  obtain ⟨prog, hp, hpc⟩ := (fetch_eq_ok s i).mp hi
  refine ⟨prog, i, hf, hp, hpc, he, ?_⟩
  rcases exec_cases i s with ⟨r, hr, he'⟩ | ⟨hn, u, he', hu⟩
  · exact .inl ⟨r, hr, by rw [he] at he'; exact (Host.Outcome.next.inj he')⟩
  · rw [he] at he'
    obtain rfl := Host.Outcome.next.inj he'
    exact .inr ⟨hn, hu⟩

/-! ## Runs -/

@[simp] theorem run_zero (s : State) : run 0 s = .next s := rfl

/-- A run of `k + 1` steps is one step and a run of `k`. -/
theorem run_succ (k : Nat) (s t : State) :
    run (k + 1) s = .next t ↔ ∃ u, step s = .next u ∧ run k u = .next t := by
  rw [run]
  cases h : step s <;> simp

/-- What every step keeps holds along every run. -/
theorem run_induction {P : State → Prop} (hstep : ∀ s t, P s → step s = .next t → P t) :
    ∀ (k : Nat) (s t : State), P s → run k s = .next t → P t
  | 0, s, t, hs, h => by
    obtain rfl := Host.Outcome.next.inj ((run_zero s).symm.trans h); exact hs
  | k + 1, s, t, hs, h => by
    obtain ⟨u, hu, ht⟩ := (run_succ k s t).mp h
    exact run_induction hstep k u t (hstep s u hs hu) ht

/-- A state that can be read completes: no source is reported as unread. -/
theorem firstUnread_eq_none (s : State) :
    ∀ rs, firstUnread s rs = none ↔ ∀ x ∈ rs, ∃ v, s.operand x.1 x.2 = .ok v
  | [] => by simp [firstUnread]
  | (w, o) :: rest => by
    cases h : s.operand w o with
    | error r => simp [firstUnread, h]
    | ok v => simp [firstUnread, h, firstUnread_eq_none s rest]

/-- Along a run the statements executed are those from the first `pc` to the last. -/
theorem step_pc_le {s t : State} (h : step s = .next t) : s.pc ≤ t.pc ∧ t.params = s.params := by
  obtain ⟨prog, i, _, _, _, _, ⟨r, _, rfl⟩ | ⟨_, hpc, ho, _⟩⟩ := step_cases h
  · exact ⟨Nat.le_refl _, rfl⟩
  · exact ⟨by omega, ho.1⟩

end Sys2Proof.Machine
end

