-- ==== Sys2Proof/Laws/Launch.lean ====
section
/-! SUPPORT. The register map of a launch, the classes of its values, and the load of one statement
(notes/assumptions/4.md). -/

namespace Sys2Proof.Machine

/-! ## The map of a launch -/

theorem reset_wf : State.reset.regs.wf = true := rfl

theorem ofList_wf : ∀ vs, (RegFile.ofList vs).wf = true
  | [] => rfl
  | (r, v) :: rest => set_wf r v (ofList_wf rest)

theorem ofList_get_eq_none {r : RegName} : ∀ {vs : List (RegName × Value)}, r ∉ vs.map Prod.fst →
    (RegFile.ofList vs).get r = none
  | [], _ => rfl
  | (q, v) :: rest, h => by
    simp only [List.map_cons, List.mem_cons, not_or] at h
    rw [RegFile.ofList, get_set_of_ne _ _ h.1]; exact ofList_get_eq_none h.2

theorem mem_keys_iff {r : RegName} : ∀ {vs : List (RegName × Value)},
    r ∈ vs.map Prod.fst ↔ ∃ v, (RegFile.ofList vs).get r = some v
  | [] => by simp [RegFile.ofList, RegFile.get]
  | (q, v) :: rest => by
    rw [RegFile.ofList]
    by_cases h : r = q
    · subst h; simp
    · rw [get_set_of_ne _ _ h, ← mem_keys_iff]; simp [h]

/-- Values that fit give a register map in which every value has its register's class. -/
theorem ofList_class {decl : RegDecl} : ∀ {vs}, launchFits decl vs = true → ∀ r v, (RegFile.ofList vs).get r = some v →
    decl.classOf r = some v.width
  | [], _, r, v, h => by cases h
  | (q, u) :: rest, hf, r, v, h => by
    simp only [launchFits, Bool.and_eq_true, decide_eq_true_eq] at hf
    by_cases hr : r = q
    · subst hr; rw [RegFile.ofList, get_set_same] at h; cases h; exact hf.1
    · rw [RegFile.ofList, get_set_of_ne _ _ hr] at h; exact ofList_class hf.2 r v h

/-! ## Registers of the right class -/

/-- Where every value has its register's class, a register operand at its declared class is unreadable only because the
register holds no value. -/
theorem get_eq_none_of_readReg {s : State} {w : Width} {r : RegName} (ht : WellTyped s)
    (hd : s.params.decl.classOf r = some w) (h : s.readReg w r = none) : s.regs.get r = none := by
  unfold State.readReg at h
  cases hg : s.regs.get r with
  | none => rfl
  | some v =>
    rw [hg] at h
    have := ht r v hg
    rw [hd] at this
    obtain ⟨b, hb⟩ := (bitsAt_isSome_iff w v).mpr (Option.some.inj this).symm
    simp [hb] at h

theorem regAt_of_srcAt {p : Params} {w : Width} {r : RegName} (h : SrcAt p w (.reg r)) : RegAt p w r := by
  rcases h with ⟨q, hq, h⟩ | ⟨v, hv, _⟩
  · cases hq; exact h
  · cases hv

theorem mem_sourceNames {r : RegName} : ∀ {rs : List (Width × Src)}, r ∈ sourceNames rs ↔ ∃ w, (w, Src.reg r) ∈ rs
  | [] => by simp [sourceNames]
  | (w, .reg q) :: rest => by
    simp only [sourceNames, List.mem_cons, mem_sourceNames, Prod.mk.injEq, Src.reg.injEq]
    constructor
    · rintro (rfl | ⟨w', h⟩)
      · exact ⟨w, .inl ⟨rfl, rfl⟩⟩
      · exact ⟨w', .inr h⟩
    · rintro ⟨w', ⟨_, h⟩ | h⟩
      · exact .inl h
      · exact .inr ⟨w', h⟩
  | (w, .imm v) :: rest => by simp [sourceNames, mem_sourceNames]

/-- The value of an operand depends on the register it names alone. -/
theorem operand_congr {s₁ s₂ : State} {w : Width} {o : Src} (h : ∀ r, o = .reg r → s₁.regs.get r = s₂.regs.get r) :
    s₁.operand w o = s₂.operand w o := by
  cases o with
  | imm v => rfl
  | reg r => simp [State.operand, State.readReg, h r rfl]

/-! ## The load of one statement -/

theorem giveValues_fields : ∀ (rs : List (Width × Src)) (s : State),
    (giveValues rs s).params = s.params ∧ (giveValues rs s).pc = s.pc ∧ (giveValues rs s).fault = s.fault
  | [], s => ⟨rfl, rfl, rfl⟩
  | (w, .reg r) :: rest, s => by
    simp only [giveValues]
    split
    · exact giveValues_fields rest s
    · exact giveValues_fields rest _
  | (w, .imm v) :: rest, s => giveValues_fields rest s

/-- Giving values to registers keeps the canonical form of the map. -/
theorem giveValues_wf : ∀ (rs : List (Width × Src)) (s : State), s.regs.wf = true → (giveValues rs s).regs.wf = true
  | [], _, h => h
  | (w, .reg r) :: rest, s, h => by
    simp only [giveValues]
    split
    · exact giveValues_wf rest s h
    · exact giveValues_wf rest _ (set_wf _ _ h)
  | (w, .imm v) :: rest, s, h => giveValues_wf rest s h

/-- A register that is readable at its class stays so. -/
theorem giveValues_keeps {w : Width} {r : RegName} : ∀ (rs : List (Width × Src)) (s : State),
    (∀ x ∈ rs, x.2 = .reg r → x.1 = w) → (∃ v, s.readReg w r = some v) → ∃ v, (giveValues rs s).readReg w r = some v
  | [], s, _, h => h
  | (u, .reg q) :: rest, s, hc, h => by
    simp only [giveValues]
    split
    · exact giveValues_keeps rest s (fun x hx => hc x (by simp [hx])) h
    · refine giveValues_keeps rest _ (fun x hx => hc x (by simp [hx])) ?_
      by_cases hq : r = q
      · subst hq
        obtain rfl : u = w := hc (u, .reg r) (by simp) rfl
        exact ⟨_, readReg_writeReg_same s u r 0⟩
      · rw [readReg_writeReg_of_ne _ _ _ _ hq]; exact h
  | (_, .imm v) :: rest, s, hc, h => giveValues_keeps rest s (fun x hx => hc x (by simp [hx])) h

/-- Where no register is named at two classes, every source can be read after it. -/
theorem giveValues_reads : ∀ (rs : List (Width × Src)) (s : State),
    (∀ x ∈ rs, ∀ y ∈ rs, ∀ r, x.2 = .reg r → y.2 = .reg r → x.1 = y.1) →
    ∀ x ∈ rs, ∃ v, (giveValues rs s).operand x.1 x.2 = .ok v
  | [], _, _, x, hx => by simp at hx
  | (w, o) :: rest, s, hc, x, hx => by
    have hrest : ∀ s', ∀ x ∈ rest, ∃ v, (giveValues rest s').operand x.1 x.2 = .ok v := fun s' =>
      giveValues_reads rest s' (fun x hx y hy => hc x (by simp [hx]) y (by simp [hy]))
    cases o with
    | imm v =>
      rcases List.mem_cons.mp hx with rfl | hx
      · exact ⟨_, rfl⟩
      · exact hrest s x hx
    | reg r =>
      simp only [giveValues]
      have hcls : ∀ y ∈ rest, y.2 = .reg r → y.1 = w := fun y hy e =>
        (hc (w, .reg r) (by simp) y (by simp [hy]) r rfl e).symm
      split
      · rename_i v hv
        rcases List.mem_cons.mp hx with rfl | hx
        · obtain ⟨u, hu⟩ := giveValues_keeps rest s hcls ⟨v, hv⟩
          exact ⟨u, operand_reg_of_some hu⟩
        · exact hrest _ x hx
      · rcases List.mem_cons.mp hx with rfl | hx
        · obtain ⟨u, hu⟩ := giveValues_keeps rest (s.writeReg w r 0) hcls ⟨0, readReg_writeReg_same s w r 0⟩
          exact ⟨u, operand_reg_of_some hu⟩
        · exact hrest _ x hx

end Sys2Proof.Machine
end

