-- ==== Sys2Proof/Laws/Spell.lean ====
section
/-! SUPPORT. One law per function of the decoder and the encoder: what the token reader does on words and marks, what
splitting does, and that every canonical spelling of an operand is read back. -/

namespace Sys2Proof

/-! ## Characters -/

theorem isWordChar_of_isNameChar {c : Char} (h : isNameChar c = true) : isWordChar c = true := by
  simp only [isNameChar, isWordChar, Bool.or_eq_true] at *
  tauto

theorem isWordChar_of_isNameStart {c : Char} (h : isNameStart c = true) : isWordChar c = true := by
  simp only [isNameStart, isWordChar, Bool.or_eq_true] at *
  tauto

theorem not_isDigit_of_isNameStart {c : Char} (h : isNameStart c = true) : isDigit c = false := by
  simp only [isNameStart, isLetter, isDigit, Bool.or_eq_true, Bool.and_eq_true, decide_eq_true_eq,
    Bool.and_eq_false_iff, decide_eq_false_iff_not] at *
  rcases h with ((h | rfl) | rfl) | rfl
  · omega
  · decide
  · decide
  · decide

/-- A register name begins with a start character and is made of word characters. -/
theorem isRegName_cases {r : RegName} (h : isRegName r = true) :
    ∃ c cs, r = c :: cs ∧ isNameStart c = true ∧ r ≠ ['_'] ∧ ∀ x ∈ r, isWordChar x = true := by
  cases r with
  | nil => simp [isRegName] at h
  | cons c cs =>
    simp only [isRegName, Bool.and_eq_true, List.all_eq_true, Bool.not_eq_true'] at h
    refine ⟨c, cs, rfl, h.1.1, ?_, ?_⟩
    · rintro e
      obtain ⟨rfl, rfl⟩ := List.cons.inj e
      simp at h
    · intro x hx
      rcases List.mem_cons.mp hx with rfl | hx
      · exact isWordChar_of_isNameStart h.1.1
      · exact isWordChar_of_isNameChar (h.1.2 x hx)

/-! ## Tokens -/

theorem lexFrom_inWord_append (acc w rest : List Char) (h : ∀ c ∈ w, isWordChar c = true) :
    lexFrom (.inWord acc) (w ++ rest) = lexFrom (.inWord (acc ++ w)) rest := by
  induction w generalizing acc with
  | nil => simp
  | cons c cs ih =>
    have hc := h c (by simp)
    simp only [List.cons_append, lexFrom, lexStep, hc, if_true, List.nil_append]
    rw [ih _ (fun x hx => h x (List.mem_cons_of_mem _ hx))]
    simp

/-- A word read from between two tokens. -/
theorem lexFrom_gap_word (w rest : List Char) (hne : w ≠ []) (h : ∀ c ∈ w, isWordChar c = true) :
    lexFrom .gap (w ++ rest) = lexFrom (.inWord w) rest := by
  cases w with
  | nil => exact absurd rfl hne
  | cons c cs =>
    have hc := h c (by simp)
    simp only [List.cons_append, lexFrom, lexStep, lexStart, hc, if_true, List.nil_append]
    rw [lexFrom_inWord_append _ _ _ (fun x hx => h x (List.mem_cons_of_mem _ hx))]
    rfl

/-- The first character after a word completes it. -/
theorem lexFrom_inWord_cons (w rest : List Char) {c : Char} (h : isWordChar c = false) :
    lexFrom (.inWord w) (c :: rest) = .word w :: lexFrom .gap (c :: rest) := by
  simp [lexFrom, lexStep, h]

@[simp] theorem lexFrom_gap_space (rest : List Char) : lexFrom .gap (' ' :: rest) = lexFrom .gap rest := rfl
@[simp] theorem lexFrom_gap_newline (rest : List Char) : lexFrom .gap ('\n' :: rest) = lexFrom .gap rest := rfl
@[simp] theorem lexFrom_gap_comma (rest : List Char) : lexFrom .gap (',' :: rest) = .comma :: lexFrom .gap rest := rfl
@[simp] theorem lexFrom_gap_semi (rest : List Char) : lexFrom .gap (';' :: rest) = .semi :: lexFrom .gap rest := rfl
@[simp] theorem lexFrom_gap_bar (rest : List Char) : lexFrom .gap ('|' :: rest) = .bar :: lexFrom .gap rest := rfl

/-- A word followed by a mark or a space. -/
theorem lex_word_cons (w rest : List Char) {c : Char} (hne : w ≠ []) (h : ∀ x ∈ w, isWordChar x = true)
    (hc : isWordChar c = false) :
    lexFrom .gap (w ++ c :: rest) = .word w :: lexFrom .gap (c :: rest) := by
  rw [lexFrom_gap_word w _ hne h, lexFrom_inWord_cons _ _ hc]

/-- Where the token reader stands after a text, and the tokens it has completed. -/
def lexRun : LexMode → List Char → List Tok × LexMode
  | m, [] => ([], m)
  | m, c :: cs => ((lexStep m c).1 ++ (lexRun (lexStep m c).2 cs).1, (lexRun (lexStep m c).2 cs).2)

/-- The tokens of two texts put together. -/
theorem lexFrom_append (m : LexMode) (p q : List Char) :
    lexFrom m (p ++ q) = (lexRun m p).1 ++ lexFrom (lexRun m p).2 q := by
  induction p generalizing m with
  | nil => simp [lexRun]
  | cons c cs ih => simp [lexFrom, lexRun, ih]

/-! ## Splitting -/

/-- A statement's tokens, up to its semicolon. -/
theorem splitSemi_append (ts us : List Tok) (h : .semi ∉ ts) :
    splitSemi (ts ++ .semi :: us) = (ts :: (splitSemi us).1, (splitSemi us).2) := by
  induction ts with
  | nil => rfl
  | cons t ts ih =>
    simp only [List.mem_cons, not_or] at h
    have := ih h.2
    cases t <;> simp_all [splitSemi]

theorem splitComma_ne_nil (ts : List Tok) : splitComma ts ≠ [] := by
  cases ts with
  | nil => simp [splitComma]
  | cons t ts => cases t <;> simp only [splitComma, ne_eq, reduceCtorEq, not_false_eq_true] <;> split <;> simp

theorem splitComma_of_not_mem (ts : List Tok) (h : .comma ∉ ts) : splitComma ts = [ts] := by
  induction ts with
  | nil => rfl
  | cons t ts ih =>
    simp only [List.mem_cons, not_or] at h
    have := ih h.2
    cases t <;> simp_all [splitComma]

/-- An operand's tokens, up to its comma. -/
theorem splitComma_append (ts us : List Tok) (h : .comma ∉ ts) :
    splitComma (ts ++ .comma :: us) = ts :: splitComma us := by
  induction ts with
  | nil => rfl
  | cons t ts ih =>
    simp only [List.mem_cons, not_or] at h
    have := ih h.2
    cases t <;> simp_all [splitComma]

/-! ## Numerals -/

theorem toNat_ofNat_of_lt {k : Nat} (h : k < 128) : (Char.ofNat k).toNat = k := by
  have hv : k.isValidChar := Or.inl (by omega)
  simp [Char.ofNat, hv, Char.toNat, Char.ofNatAux]

theorem isDigit_ofNat {v : Nat} (h : v < 10) : isDigit (Char.ofNat (48 + v)) = true := by
  simp only [isDigit, toNat_ofNat_of_lt (show 48 + v < 128 by omega), Bool.and_eq_true, decide_eq_true_eq]
  omega

theorem decDigit_ofNat {v : Nat} (h : v < 10) : decDigit (Char.ofNat (48 + v)) = some v := by
  simp [decDigit, isDigit_ofNat h, toNat_ofNat_of_lt (show 48 + v < 128 by omega)]

theorem hexDigit_hexChar {v : Nat} (h : v < 16) : hexDigit (hexChar v) = some v := by
  by_cases h10 : v < 10
  · simp [hexChar, h10, hexDigit, isDigit_ofNat h10, toNat_ofNat_of_lt (show 48 + v < 128 by omega)]
  · have h1 : (Char.ofNat (55 + v)).toNat = 55 + v := toNat_ofNat_of_lt (by omega)
    have h2 : isDigit (Char.ofNat (55 + v)) = false := by
      simp only [isDigit, h1, Bool.and_eq_false_iff, decide_eq_false_iff_not]; omega
    simp only [hexChar, h10, if_false, hexDigit, h1, h2, Bool.false_eq_true]
    rw [if_pos (by omega)]
    simp

theorem isWordChar_hexChar {v : Nat} (h : v < 16) : isWordChar (hexChar v) = true := by
  by_cases h10 : v < 10
  · simp [hexChar, h10, isWordChar, isDigit_ofNat h10]
  · have h1 : (Char.ofNat (55 + v)).toNat = 55 + v := toNat_ofNat_of_lt (by omega)
    have : isLetter (Char.ofNat (55 + v)) = true := by
      simp only [isLetter, h1, Bool.or_eq_true, Bool.and_eq_true, decide_eq_true_eq]; omega
    simp [hexChar, h10, isWordChar, this]

theorem readDigits_append (base : Nat) (digit : Char → Option Nat) (acc : Nat) (xs ys : List Char) :
    readDigits base digit acc (xs ++ ys) = (readDigits base digit acc xs).bind fun v => readDigits base digit v ys := by
  induction xs generalizing acc with
  | nil => rfl
  | cons c cs ih =>
    simp only [List.cons_append, readDigits]
    cases digit c <;> simp [ih]

theorem hexDigits_length (n v : Nat) : (hexDigits n v).length = n := by
  induction n generalizing v with
  | zero => rfl
  | succ n ih => simp [hexDigits, ih]

theorem hexDigits_wordChars (n v : Nat) : ∀ c ∈ hexDigits n v, isWordChar c = true := by
  induction n generalizing v with
  | zero => simp [hexDigits]
  | succ n ih =>
    intro c hc
    simp only [hexDigits, List.mem_append, List.mem_singleton] at hc
    rcases hc with hc | rfl
    · exact ih _ c hc
    · exact isWordChar_hexChar (Nat.mod_lt _ (by omega))

/-- Hexadecimal digits are read back. -/
theorem readDigits_hexDigits (n v acc : Nat) (h : v < 16 ^ n) :
    readDigits 16 hexDigit acc (hexDigits n v) = some (acc * 16 ^ n + v) := by
  induction n generalizing v acc with
  | zero => simp at h; simp [hexDigits, readDigits, h]
  | succ n ih =>
    have hlt : v / 16 < 16 ^ n := by rw [pow_succ] at h; omega
    rw [hexDigits, readDigits_append, ih _ _ hlt]
    simp only [Option.bind_some, readDigits, hexDigit_hexChar (Nat.mod_lt v (by omega : 0 < 16)), Option.some.injEq]
    rw [pow_succ, add_mul, mul_assoc]
    omega

theorem readNumeral_hex (n v : Nat) (hn : 0 < n) (h : v < 16 ^ n) :
    readNumeral ('0' :: 'x' :: hexDigits n v) = some v := by
  have hne : (hexDigits n v).isEmpty = false := by
    rw [List.isEmpty_eq_false_iff, ← List.length_pos_iff, hexDigits_length]; exact hn
  simp [readNumeral, hne, readDigits_hexDigits n v 0 h]

theorem decDigits_ne_nil (n v : Nat) : decDigits (n + 1) v ≠ [] := by
  simp only [decDigits]; split <;> simp

theorem decDigits_wordChars (n v : Nat) : ∀ c ∈ decDigits n v, isWordChar c = true := by
  have hd : ∀ {k}, k < 10 → isWordChar (Char.ofNat (48 + k)) = true := fun h => by simp [isWordChar, isDigit_ofNat h]
  induction n generalizing v with
  | zero => simp [decDigits]
  | succ n ih =>
    intro c hc
    simp only [decDigits] at hc
    split at hc
    · rename_i h; rw [List.mem_singleton.mp hc]; exact hd h
    · rcases List.mem_append.mp hc with hc | hc
      · exact ih _ c hc
      · rw [List.mem_singleton.mp hc]; exact hd (Nat.mod_lt _ (by omega))

/-- Decimal digits are read back. -/
theorem readDigits_decDigits (n v : Nat) (h : v < 10 ^ n) : readDigits 10 decDigit 0 (decDigits n v) = some v := by
  induction n generalizing v with
  | zero => simp at h; simp [decDigits, readDigits, h]
  | succ n ih =>
    simp only [decDigits]
    split
    · rename_i h10; simp [readDigits, decDigit_ofNat h10]
    · have hlt : v / 10 < 10 ^ n := by rw [pow_succ] at h; omega
      rw [readDigits_append, ih _ hlt]
      simp only [Option.bind_some, readDigits, decDigit_ofNat (Nat.mod_lt v (by omega : 0 < 10)), Option.some.injEq]
      omega

/-- A decimal numeral starts with the digit 0 only where it is `0`. -/
theorem decDigits_head (n v : Nat) (hv : 0 < v) (h : v < 10 ^ n) :
    ∃ k ds, decDigits n v = Char.ofNat (48 + k) :: ds ∧ 0 < k ∧ k < 10 := by
  induction n generalizing v with
  | zero => simp at h; omega
  | succ n ih =>
    simp only [decDigits]
    split
    · rename_i h10; exact ⟨v, [], rfl, hv, h10⟩
    · obtain ⟨k, ds, hk, h1, h2⟩ := ih (v / 10) (by omega) (by rw [pow_succ] at h; omega)
      exact ⟨k, ds ++ [Char.ofNat (48 + v % 10)], by simp [hk], h1, h2⟩

theorem readNumeral_of_ne_zero {c : Char} (ds : List Char) (h : c ≠ '0') :
    readNumeral (c :: ds) = readDigits 10 decDigit 0 (c :: ds) := by
  unfold readNumeral
  split <;> simp_all

/-- The digits that a spelling gives a number are enough for it. -/
theorem lt_pow_log2 (v : Nat) : v < 10 ^ (v.log2 + 1) :=
  lt_of_lt_of_le Nat.lt_log2_self (Nat.pow_le_pow_left (by omega) _)

theorem lt_pow_hexLength (least v : Nat) : v < 16 ^ max least (v.log2 / 4 + 1) := by
  have h : 2 ^ (v.log2 + 1) ≤ 16 ^ max least (v.log2 / 4 + 1) := by
    rw [show 16 = 2 ^ 4 from rfl, ← pow_mul]
    exact Nat.pow_le_pow_right (by omega) (by omega)
  exact lt_of_lt_of_le Nat.lt_log2_self h

/-- Every decimal spelling is read back. -/
theorem readNumeral_dec (v : Nat) : readNumeral (spellDec v) = some v := by
  rcases Nat.eq_zero_or_pos v with rfl | hv
  · rfl
  · obtain ⟨k, ds, hk, h1, h2⟩ := decDigits_head _ v hv (lt_pow_log2 v)
    have hne : Char.ofNat (48 + k) ≠ '0' := by
      intro e
      have : (Char.ofNat (48 + k)).toNat = 48 := by rw [e]; rfl
      rw [toNat_ofNat_of_lt (by omega)] at this
      omega
    rw [spellDec, ← readDigits_decDigits _ v (lt_pow_log2 v), hk, readNumeral_of_ne_zero ds hne]

/-! ## Operands -/

theorem readAtom_reg {r : RegName} (h : isRegName r = true) : readAtom r = .ok (.reg r) := by
  obtain ⟨c, cs, rfl, hs, hne, _⟩ := isRegName_cases h
  simp [readAtom, hne, startsWithDigit, not_isDigit_of_isNameStart hs, h]

/-- Every hexadecimal spelling is read back, whatever number of digits it has at least. -/
theorem readAtom_hex (least v : Nat) : readAtom (spellHexAtLeast least v) = .ok (.lit v) := by
  have h1 : startsWithDigit (spellHexAtLeast least v) = true := rfl
  have h2 : readNumeral (spellHexAtLeast least v) = some v :=
    readNumeral_hex _ v (by omega) (lt_pow_hexLength least v)
  have h3 : spellHexAtLeast least v ≠ ['_'] := by simp [spellHexAtLeast]
  simp [readAtom, h1, h2, h3]

theorem readAtom_dec (v : Nat) : readAtom (spellDec v) = .ok (.lit v) := by
  have h1 : startsWithDigit (spellDec v) = true := by
    rcases Nat.eq_zero_or_pos v with rfl | hv
    · rfl
    · obtain ⟨k, ds, hk, _, h2⟩ := decDigits_head _ v hv (lt_pow_log2 v)
      rw [spellDec, hk]; exact isDigit_ofNat h2
  have h2 : spellDec v ≠ ['_'] := by
    intro e; rw [e] at h1; exact absurd h1 (by decide)
  simp [readAtom, h1, h2, readNumeral_dec v]

@[simp] theorem readAtom_sink : readAtom ['_'] = .ok .sink := rfl

/-- One source operand as a part of the text. -/
def Src.atom : Src → Atom
  | .reg r => .reg r
  | .imm v => .lit v

/-- A source operand whose register, if it is one, has a name of R86. -/
def Src.Spelled : Src → Prop
  | .reg r => isRegName r = true
  | .imm _ => True

/-- A text made of word characters only, and not empty: it is one word. -/
def IsWord (w : List Char) : Prop := w ≠ [] ∧ ∀ c ∈ w, isWordChar c = true

theorem isWord_of_isRegName {r : RegName} (h : isRegName r = true) : IsWord r := by
  obtain ⟨c, cs, rfl, _, _, hw⟩ := isRegName_cases h
  exact ⟨by simp, hw⟩

theorem isWord_hex (least v : Nat) : IsWord (spellHexAtLeast least v) := by
  refine ⟨by simp [spellHexAtLeast], fun c hc => ?_⟩
  rcases List.mem_cons.mp hc with rfl | hc
  · decide
  · rcases List.mem_cons.mp hc with rfl | hc
    · decide
    · exact hexDigits_wordChars _ v c hc

theorem isWord_dec (v : Nat) : IsWord (spellDec v) :=
  ⟨decDigits_ne_nil _ v, decDigits_wordChars _ v⟩

theorem spellSrc_isWord (w : Width) {o : Src} (h : o.Spelled) : IsWord (spellSrc w o) := by
  cases o with
  | reg r => exact isWord_of_isRegName h
  | imm v => exact isWord_hex _ v

theorem spellAmount_isWord {o : Src} (h : o.Spelled) : IsWord (spellAmount o) := by
  cases o with
  | reg r => exact isWord_of_isRegName h
  | imm v => exact isWord_dec v

/-- A source operand in hexadecimal is read back. -/
theorem readAtom_spellSrc (w : Width) {o : Src} (h : o.Spelled) : readAtom (spellSrc w o) = .ok o.atom := by
  cases o with
  | reg r => exact readAtom_reg h
  | imm v => exact readAtom_hex _ v

/-- A shift amount in decimal is read back. -/
theorem readAtom_spellAmount {o : Src} (h : o.Spelled) : readAtom (spellAmount o) = .ok o.atom := by
  cases o with
  | reg r => exact readAtom_reg h
  | imm v => exact readAtom_dec v

theorem readAtom_spellLut (v : Nat) : readAtom (spellLut v) = .ok (.lit v) :=
  readAtom_hex 2 v

end Sys2Proof
end

