-- ==== Sys2Proof/Laws/PerInstr.lean ====
section
/-! SUPPORT. A family of facts about every form as syntax: the mnemonic of the form (spec/30_encoding.md R92) names, in the
decoder's opcode map, a format that builds exactly this term from its operands in the order written (R82). -/

namespace Sys2Proof.Laws.Spelling

/-- The operands of a term as the decoder reads them, in the order written. -/
def operands (i : Instr) : List Operand :=
  match i.layout with
  | .f2 _ _ d a => [.atom (.reg d), .atom a.atom]
  | .f3 _ _ d a b => [.atom (.reg d), .atom a.atom, .atom b.atom]
  | .f3Shift _ _ d a b => [.atom (.reg d), .atom a.atom, .atom b.atom]
  | .fl _ d a b c l => [.atom (.reg d), .atom a.atom, .atom b.atom, .atom c.atom, .atom (.lit l)]
  | .flb _ (.reg d) p a b c l q =>
    [.pair (.reg d) (.reg p), .atom a.atom, .atom b.atom, .atom c.atom, .atom (.lit l), .atom q.atom]
  | .flb _ .sink p a b c l q =>
    [.pair .sink (.reg p), .atom a.atom, .atom b.atom, .atom c.atom, .atom (.lit l), .atom q.atom]
  | .fs _ d a b c => [.atom (.reg d), .atom a.atom, .atom b.atom, .atom c.atom]

/-- The mnemonic names a format that builds the term from its operands. -/
def Statement (i : Instr) : Prop :=
  ∃ sh, findShape i.mnemonic.toList opcodeMap = some sh ∧ sh.build (operands i) = .ok i

/-! ## The mnemonic in the opcode map -/

theorem findShape_toList (m m' : String) (sh : Shape) (rest : List (String × Shape)) :
    findShape m.toList ((m', sh) :: rest) = if m' = m then some sh else findShape m.toList rest := by
  simp [findShape, String.toList_inj]

/-! ## Building a term of each format from its operands -/

@[simp] theorem asSrc_atom (o : Src) : (Operand.atom o.atom).asSrc = .ok o := by cases o <;> rfl

theorem build_f2 (mk : RegName → Src → Instr) (d : RegName) (a : Src) :
    (Shape.f2 mk).build [.atom (.reg d), .atom a.atom] = .ok (mk d a) := by
  simp [Shape.build, Operand.asDst, bind, Except.bind]

theorem build_f3 (mk : RegName → Src → Src → Instr) (d : RegName) (a b : Src) :
    (Shape.f3 mk).build [.atom (.reg d), .atom a.atom, .atom b.atom] = .ok (mk d a b) := by
  simp [Shape.build, Operand.asDst, bind, Except.bind]

theorem build_fl (mk : RegName → Src → Src → Src → Nat → Instr) (d : RegName) (a b c : Src) (l : Nat) :
    (Shape.fl mk).build [.atom (.reg d), .atom a.atom, .atom b.atom, .atom c.atom, .atom (.lit l)] =
      .ok (mk d a b c l) := by
  simp [Shape.build, Operand.asDst, Operand.asLut, bind, Except.bind]

theorem build_flb (mk : DstSink → RegName → Src → Src → Src → Nat → Src → Instr) (d : DstSink) (p : RegName)
    (a b c : Src) (l : Nat) (q : Src) :
    (Shape.flb mk).build
      [.pair (match d with | .reg r => .reg r | .sink => .sink) (.reg p), .atom a.atom, .atom b.atom, .atom c.atom,
        .atom (.lit l), .atom q.atom] = .ok (mk d p a b c l q) := by
  cases d <;> simp [Shape.build, Operand.asPair, Operand.asLut, bind, Except.bind]

theorem build_fs (mk : RegName → Src → Src → Src → Instr) (d : RegName) (a b c : Src) :
    (Shape.fs mk).build [.atom (.reg d), .atom a.atom, .atom b.atom, .atom c.atom] = .ok (mk d a b c) := by
  simp [Shape.build, Operand.asDst, bind, Except.bind]

/-! ## One lemma per form -/

theorem andPred (d : RegName) (a b : Src) : Statement (.andPred d a b) :=
  ⟨_, by simp only [Instr.mnemonic, Instr.layout, opcodeMap, findShape_toList, String.reduceEq, if_true, if_false],
    build_f3 _ d a b⟩

theorem andB16 (d : RegName) (a b : Src) : Statement (.andB16 d a b) :=
  ⟨_, by simp only [Instr.mnemonic, Instr.layout, opcodeMap, findShape_toList, String.reduceEq, if_true, if_false],
    build_f3 _ d a b⟩

theorem andB32 (d : RegName) (a b : Src) : Statement (.andB32 d a b) :=
  ⟨_, by simp only [Instr.mnemonic, Instr.layout, opcodeMap, findShape_toList, String.reduceEq, if_true, if_false],
    build_f3 _ d a b⟩

theorem andB64 (d : RegName) (a b : Src) : Statement (.andB64 d a b) :=
  ⟨_, by simp only [Instr.mnemonic, Instr.layout, opcodeMap, findShape_toList, String.reduceEq, if_true, if_false],
    build_f3 _ d a b⟩

theorem orPred (d : RegName) (a b : Src) : Statement (.orPred d a b) :=
  ⟨_, by simp only [Instr.mnemonic, Instr.layout, opcodeMap, findShape_toList, String.reduceEq, if_true, if_false],
    build_f3 _ d a b⟩

theorem orB16 (d : RegName) (a b : Src) : Statement (.orB16 d a b) :=
  ⟨_, by simp only [Instr.mnemonic, Instr.layout, opcodeMap, findShape_toList, String.reduceEq, if_true, if_false],
    build_f3 _ d a b⟩

theorem orB32 (d : RegName) (a b : Src) : Statement (.orB32 d a b) :=
  ⟨_, by simp only [Instr.mnemonic, Instr.layout, opcodeMap, findShape_toList, String.reduceEq, if_true, if_false],
    build_f3 _ d a b⟩

theorem orB64 (d : RegName) (a b : Src) : Statement (.orB64 d a b) :=
  ⟨_, by simp only [Instr.mnemonic, Instr.layout, opcodeMap, findShape_toList, String.reduceEq, if_true, if_false],
    build_f3 _ d a b⟩

theorem xorPred (d : RegName) (a b : Src) : Statement (.xorPred d a b) :=
  ⟨_, by simp only [Instr.mnemonic, Instr.layout, opcodeMap, findShape_toList, String.reduceEq, if_true, if_false],
    build_f3 _ d a b⟩

theorem xorB16 (d : RegName) (a b : Src) : Statement (.xorB16 d a b) :=
  ⟨_, by simp only [Instr.mnemonic, Instr.layout, opcodeMap, findShape_toList, String.reduceEq, if_true, if_false],
    build_f3 _ d a b⟩

theorem xorB32 (d : RegName) (a b : Src) : Statement (.xorB32 d a b) :=
  ⟨_, by simp only [Instr.mnemonic, Instr.layout, opcodeMap, findShape_toList, String.reduceEq, if_true, if_false],
    build_f3 _ d a b⟩

theorem xorB64 (d : RegName) (a b : Src) : Statement (.xorB64 d a b) :=
  ⟨_, by simp only [Instr.mnemonic, Instr.layout, opcodeMap, findShape_toList, String.reduceEq, if_true, if_false],
    build_f3 _ d a b⟩

theorem notPred (d : RegName) (a : Src) : Statement (.notPred d a) :=
  ⟨_, by simp only [Instr.mnemonic, Instr.layout, opcodeMap, findShape_toList, String.reduceEq, if_true, if_false],
    build_f2 _ d a⟩

theorem notB16 (d : RegName) (a : Src) : Statement (.notB16 d a) :=
  ⟨_, by simp only [Instr.mnemonic, Instr.layout, opcodeMap, findShape_toList, String.reduceEq, if_true, if_false],
    build_f2 _ d a⟩

theorem notB32 (d : RegName) (a : Src) : Statement (.notB32 d a) :=
  ⟨_, by simp only [Instr.mnemonic, Instr.layout, opcodeMap, findShape_toList, String.reduceEq, if_true, if_false],
    build_f2 _ d a⟩

theorem notB64 (d : RegName) (a : Src) : Statement (.notB64 d a) :=
  ⟨_, by simp only [Instr.mnemonic, Instr.layout, opcodeMap, findShape_toList, String.reduceEq, if_true, if_false],
    build_f2 _ d a⟩

theorem cnotB16 (d : RegName) (a : Src) : Statement (.cnotB16 d a) :=
  ⟨_, by simp only [Instr.mnemonic, Instr.layout, opcodeMap, findShape_toList, String.reduceEq, if_true, if_false],
    build_f2 _ d a⟩

theorem cnotB32 (d : RegName) (a : Src) : Statement (.cnotB32 d a) :=
  ⟨_, by simp only [Instr.mnemonic, Instr.layout, opcodeMap, findShape_toList, String.reduceEq, if_true, if_false],
    build_f2 _ d a⟩

theorem cnotB64 (d : RegName) (a : Src) : Statement (.cnotB64 d a) :=
  ⟨_, by simp only [Instr.mnemonic, Instr.layout, opcodeMap, findShape_toList, String.reduceEq, if_true, if_false],
    build_f2 _ d a⟩

theorem lop3B32 (d : RegName) (a b c : Src) (l : Nat) : Statement (.lop3B32 d a b c l) :=
  ⟨_, by simp only [Instr.mnemonic, Instr.layout, opcodeMap, findShape_toList, String.reduceEq, if_true, if_false],
    build_fl _ d a b c l⟩

theorem lop3OrB32 (d : DstSink) (p : RegName) (a b c : Src) (l : Nat) (q : Src) :
    Statement (.lop3OrB32 d p a b c l q) :=
  ⟨.flb .lop3OrB32, by simp only [Instr.mnemonic, Instr.layout, opcodeMap, findShape_toList, String.reduceEq, if_true, if_false], by
    cases d with
    | reg d => exact build_flb _ (.reg d) p a b c l q
    | sink => exact build_flb _ .sink p a b c l q⟩

theorem lop3AndB32 (d : DstSink) (p : RegName) (a b c : Src) (l : Nat) (q : Src) :
    Statement (.lop3AndB32 d p a b c l q) :=
  ⟨.flb .lop3AndB32, by simp only [Instr.mnemonic, Instr.layout, opcodeMap, findShape_toList, String.reduceEq, if_true, if_false], by
    cases d with
    | reg d => exact build_flb _ (.reg d) p a b c l q
    | sink => exact build_flb _ .sink p a b c l q⟩

theorem shfLClampB32 (d : RegName) (a b c : Src) : Statement (.shfLClampB32 d a b c) :=
  ⟨_, by simp only [Instr.mnemonic, Instr.layout, opcodeMap, findShape_toList, String.reduceEq, if_true, if_false],
    build_fs _ d a b c⟩

theorem shfLWrapB32 (d : RegName) (a b c : Src) : Statement (.shfLWrapB32 d a b c) :=
  ⟨_, by simp only [Instr.mnemonic, Instr.layout, opcodeMap, findShape_toList, String.reduceEq, if_true, if_false],
    build_fs _ d a b c⟩

theorem shfRClampB32 (d : RegName) (a b c : Src) : Statement (.shfRClampB32 d a b c) :=
  ⟨_, by simp only [Instr.mnemonic, Instr.layout, opcodeMap, findShape_toList, String.reduceEq, if_true, if_false],
    build_fs _ d a b c⟩

theorem shfRWrapB32 (d : RegName) (a b c : Src) : Statement (.shfRWrapB32 d a b c) :=
  ⟨_, by simp only [Instr.mnemonic, Instr.layout, opcodeMap, findShape_toList, String.reduceEq, if_true, if_false],
    build_fs _ d a b c⟩

theorem shlB16 (d : RegName) (a b : Src) : Statement (.shlB16 d a b) :=
  ⟨_, by simp only [Instr.mnemonic, Instr.layout, opcodeMap, findShape_toList, String.reduceEq, if_true, if_false],
    build_f3 _ d a b⟩

theorem shlB32 (d : RegName) (a b : Src) : Statement (.shlB32 d a b) :=
  ⟨_, by simp only [Instr.mnemonic, Instr.layout, opcodeMap, findShape_toList, String.reduceEq, if_true, if_false],
    build_f3 _ d a b⟩

theorem shlB64 (d : RegName) (a b : Src) : Statement (.shlB64 d a b) :=
  ⟨_, by simp only [Instr.mnemonic, Instr.layout, opcodeMap, findShape_toList, String.reduceEq, if_true, if_false],
    build_f3 _ d a b⟩

theorem shrB16 (d : RegName) (a b : Src) : Statement (.shrB16 d a b) :=
  ⟨_, by simp only [Instr.mnemonic, Instr.layout, opcodeMap, findShape_toList, String.reduceEq, if_true, if_false],
    build_f3 _ d a b⟩

theorem shrB32 (d : RegName) (a b : Src) : Statement (.shrB32 d a b) :=
  ⟨_, by simp only [Instr.mnemonic, Instr.layout, opcodeMap, findShape_toList, String.reduceEq, if_true, if_false],
    build_f3 _ d a b⟩

theorem shrB64 (d : RegName) (a b : Src) : Statement (.shrB64 d a b) :=
  ⟨_, by simp only [Instr.mnemonic, Instr.layout, opcodeMap, findShape_toList, String.reduceEq, if_true, if_false],
    build_f3 _ d a b⟩

theorem shrU16 (d : RegName) (a b : Src) : Statement (.shrU16 d a b) :=
  ⟨_, by simp only [Instr.mnemonic, Instr.layout, opcodeMap, findShape_toList, String.reduceEq, if_true, if_false],
    build_f3 _ d a b⟩

theorem shrU32 (d : RegName) (a b : Src) : Statement (.shrU32 d a b) :=
  ⟨_, by simp only [Instr.mnemonic, Instr.layout, opcodeMap, findShape_toList, String.reduceEq, if_true, if_false],
    build_f3 _ d a b⟩

theorem shrU64 (d : RegName) (a b : Src) : Statement (.shrU64 d a b) :=
  ⟨_, by simp only [Instr.mnemonic, Instr.layout, opcodeMap, findShape_toList, String.reduceEq, if_true, if_false],
    build_f3 _ d a b⟩

theorem shrS16 (d : RegName) (a b : Src) : Statement (.shrS16 d a b) :=
  ⟨_, by simp only [Instr.mnemonic, Instr.layout, opcodeMap, findShape_toList, String.reduceEq, if_true, if_false],
    build_f3 _ d a b⟩

theorem shrS32 (d : RegName) (a b : Src) : Statement (.shrS32 d a b) :=
  ⟨_, by simp only [Instr.mnemonic, Instr.layout, opcodeMap, findShape_toList, String.reduceEq, if_true, if_false],
    build_f3 _ d a b⟩

theorem shrS64 (d : RegName) (a b : Src) : Statement (.shrS64 d a b) :=
  ⟨_, by simp only [Instr.mnemonic, Instr.layout, opcodeMap, findShape_toList, String.reduceEq, if_true, if_false],
    build_f3 _ d a b⟩

end Sys2Proof.Laws.Spelling
end

