-- ==== Sys2Proof/Laws/RoundTrip.lean ====
section
/-! SUPPORT. The text of a term is read back operand by operand: how a text that is one operand is tokenized and read, how a
comma separated list of such texts is, and what a term's operand texts are. -/

namespace Sys2Proof

open Sys2Proof.Machine
open Sys2Proof.Laws.Spelling (operands)

/-- A token that an operand is made of. -/
def Tok.isPart : Tok → Bool
  | .word _ => true
  | .bar => true
  | .comma => false
  | .semi => false
  | .other _ => false

/-- The text `t` is tokenized, up to a character that ends words, as `ts`, and those tokens are read as the operand `o`. -/
def OperandText (t : List Char) (o : Operand) : Prop :=
  ∃ ts, (∀ c rest, isWordChar c = false → lexFrom .gap (t ++ c :: rest) = ts ++ lexFrom .gap (c :: rest)) ∧
    readOperand ts = .ok o ∧ ∀ x ∈ ts, x.isPart = true

/-- A word that is read as a part is the text of an operand. -/
theorem operandText_word {w : List Char} {a : Atom} (h : IsWord w) (ha : readAtom w = .ok a) : OperandText w (.atom a) :=
  ⟨[.word w], fun _ rest hc => by rw [lex_word_cons w rest h.1 h.2 hc]; rfl, by simp [readOperand, ha],
    by simp [Tok.isPart]⟩

/-- Two words joined by a bar are the text of a pair. -/
theorem operandText_pair {w v : List Char} {d p : Atom} (hw : IsWord w) (hv : IsWord v) (hd : readAtom w = .ok d)
    (hp : readAtom v = .ok p) : OperandText (w ++ '|' :: v) (.pair d p) := by
  refine ⟨[.word w, .bar, .word v], fun c rest hc => ?_, by simp [readOperand, hd, hp], by simp [Tok.isPart]⟩
  rw [List.append_assoc, List.cons_append, lex_word_cons w _ hw.1 hw.2 (by decide), lexFrom_gap_bar,
    lex_word_cons v rest hv.1 hv.2 hc]
  rfl

/-- Operand texts separated by commas, up to the semicolon: their tokens are split and read as the operands. -/
theorem joinOperands_read (t : List Char) (o : Operand) (h : OperandText t o) :
    ∀ (texts : List (List Char)) (os : List Operand), List.Forall₂ OperandText texts os →
    ∃ ts, (∀ rest, lexFrom .gap (joinOperands (t :: texts) ++ ';' :: rest) = ts ++ .semi :: lexFrom .gap rest) ∧
      readOperands (splitComma ts) = .ok (o :: os) ∧ (∀ x ∈ ts, x.isPart = true ∨ x = .comma) := by
  intro texts
  induction texts generalizing t o with
  | nil =>
    intro os hos
    cases hos
    obtain ⟨ts, hl, hr, hp⟩ := h
    have hc : .comma ∉ ts := fun hm => absurd (hp _ hm) (by decide)
    refine ⟨ts, fun rest => ?_, ?_, fun x hx => .inl (hp x hx)⟩
    · rw [joinOperands, hl _ _ (by decide), lexFrom_gap_semi]
    · rw [splitComma_of_not_mem ts hc]; simp [readOperands, hr]
  | cons t' texts ih =>
    intro os hos
    obtain ⟨o', os', h', hrest, rfl⟩ := List.forall₂_cons_left_iff.mp hos
    obtain ⟨us, hu, hru, hpu⟩ := ih t' o' h' os' hrest
    obtain ⟨ts, hl, hr, hp⟩ := h
    have hc : .comma ∉ ts := fun hm => absurd (hp _ hm) (by decide)
    refine ⟨ts ++ .comma :: us, fun rest => ?_, ?_, ?_⟩
    · have hj : joinOperands (t :: t' :: texts) ++ ';' :: rest =
          t ++ ',' :: ' ' :: (joinOperands (t' :: texts) ++ ';' :: rest) := by simp [joinOperands]
      rw [hj, hl _ _ (by decide), lexFrom_gap_comma, lexFrom_gap_space, hu]
      simp
    · rw [splitComma_append ts us hc]; simp [readOperands, hr, hru]
    · intro x hx
      rcases List.mem_append.mp hx with hx | hx
      · exact .inl (hp x hx)
      · rcases List.mem_cons.mp hx with rfl | hx
        · exact .inr rfl
        · exact hpu x hx

theorem excludedFrom_eq_false (start : Bool) (ts : List Tok) (h : ∀ x ∈ ts, x.isPart = true ∨ x = .comma) :
    excludedFrom start ts = false := by
  induction ts generalizing start with
  | nil => rfl
  | cons t ts ih =>
    have ht := h t (by simp)
    have hts := fun b => ih b fun x hx => h x (by simp [hx])
    cases t with
    | word w => simpa only [excludedFrom] using hts false
    | comma => simpa only [excludedFrom] using hts true
    | bar => simpa only [excludedFrom] using hts true
    | semi => simp [Tok.isPart] at ht
    | other c => simp [Tok.isPart] at ht

/-! ## The operand texts of a term whose registers have names of R86 -/

/-- Every register that a term names has a name of R86; its literals may have any value, also one that does not fit. -/
def Instr.Spelled (i : Instr) : Prop :=
  (∀ x ∈ i.writes, isRegName x.2 = true) ∧ ∀ x ∈ i.reads, x.2.Spelled

theorem spelled_of_srcAt {p : Params} {w : Width} {o : Src} (h : SrcAt p w o) : o.Spelled := by
  rcases h with ⟨r, rfl, hr⟩ | ⟨v, rfl, _⟩
  · exact hr.1
  · trivial

theorem spelled_of_wellFormed {p : Params} {i : Instr} (h : i.WellFormed p) : i.Spelled := by
  obtain ⟨_, hw, hr, _⟩ := (wellFormed_iff p i).mp h
  exact ⟨fun x hx => (hw x hx).1, fun x hx => spelled_of_srcAt (hr x hx)⟩

theorem operandText_reg {r : RegName} (h : isRegName r = true) : OperandText r (.atom (.reg r)) :=
  operandText_word (isWord_of_isRegName h) (readAtom_reg h)

theorem operandText_src (w : Width) {o : Src} (h : o.Spelled) : OperandText (spellSrc w o) (.atom o.atom) :=
  operandText_word (spellSrc_isWord w h) (readAtom_spellSrc w h)

theorem operandText_amount {o : Src} (h : o.Spelled) : OperandText (spellAmount o) (.atom o.atom) :=
  operandText_word (spellAmount_isWord h) (readAtom_spellAmount h)

theorem operandText_lut (v : Nat) : OperandText (spellLut v) (.atom (.lit v)) :=
  operandText_word (isWord_hex 2 v) (readAtom_spellLut v)

theorem isWord_sink : IsWord ['_'] := ⟨by simp, fun c hc => by rw [List.mem_singleton.mp hc]; rfl⟩

/-- The operand texts of a term are the texts of its operands. -/
theorem operandTexts_read {i : Instr} (h : i.Spelled) : List.Forall₂ OperandText i.operandTexts (operands i) := by
  obtain ⟨hw, hr⟩ := h
  unfold Instr.writes at hw
  unfold Instr.reads at hr
  unfold Instr.operandTexts operands
  cases hlay : i.layout with
  | f2 m w d a =>
    simp only [hlay, List.mem_cons, List.not_mem_nil, or_false, forall_eq] at hw hr
    exact .cons (operandText_reg hw) (.cons (operandText_src _ hr) .nil)
  | f3 m w d a b =>
    simp only [hlay, List.mem_cons, List.not_mem_nil, or_false, forall_eq, forall_eq_or_imp] at hw hr
    exact .cons (operandText_reg hw) (.cons (operandText_src _ hr.1) (.cons (operandText_src _ hr.2) .nil))
  | f3Shift m w d a b =>
    simp only [hlay, List.mem_cons, List.not_mem_nil, or_false, forall_eq, forall_eq_or_imp] at hw hr
    exact .cons (operandText_reg hw) (.cons (operandText_src _ hr.1) (.cons (operandText_amount hr.2) .nil))
  | fl m d a b c l =>
    simp only [hlay, List.mem_cons, List.not_mem_nil, or_false, forall_eq, forall_eq_or_imp] at hw hr
    exact .cons (operandText_reg hw) (.cons (operandText_src _ hr.1) (.cons (operandText_src _ hr.2.1)
      (.cons (operandText_src _ hr.2.2) (.cons (operandText_lut l) .nil))))
  | fs m d a b c =>
    simp only [hlay, List.mem_cons, List.not_mem_nil, or_false, forall_eq, forall_eq_or_imp] at hw hr
    exact .cons (operandText_reg hw) (.cons (operandText_src _ hr.1) (.cons (operandText_src _ hr.2.1)
      (.cons (operandText_amount hr.2.2) .nil)))
  | flb m d q a b c l o =>
    have hrest : List.Forall₂ OperandText [spellSrc .w32 a, spellSrc .w32 b, spellSrc .w32 c, spellLut l, spellSrc .pred o]
        [.atom a.atom, .atom b.atom, .atom c.atom, .atom (.lit l), .atom o.atom] := by
      simp only [hlay, List.mem_cons, List.not_mem_nil, or_false, forall_eq, forall_eq_or_imp] at hr
      exact .cons (operandText_src _ hr.1) (.cons (operandText_src _ hr.2.1) (.cons (operandText_src _ hr.2.2.1)
        (.cons (operandText_lut l) (.cons (operandText_src _ hr.2.2.2) .nil))))
    cases d with
    | sink =>
      simp only [hlay, List.mem_cons, List.not_mem_nil, or_false, forall_eq] at hw
      exact .cons (operandText_pair isWord_sink (isWord_of_isRegName hw) rfl (readAtom_reg hw)) hrest
    | reg d =>
      simp only [hlay, List.mem_cons, List.not_mem_nil, or_false, forall_eq, forall_eq_or_imp] at hw
      exact .cons (operandText_pair (isWord_of_isRegName hw.1) (isWord_of_isRegName hw.2) (readAtom_reg hw.1)
        (readAtom_reg hw.2)) hrest

/-! ## Mnemonics -/

theorem mnemonic_mem (i : Instr) : i.mnemonic ∈ opcodeMap.map Prod.fst := by
  cases i <;> simp [Instr.mnemonic, Instr.layout, opcodeMap]

theorem opcodeMap_words : (opcodeMap.map Prod.fst).all (fun m =>
    m.toList.all isWordChar && !m.toList.isEmpty && !isDirective m.toList) = true := by
  decide +kernel

/-- A mnemonic is one word, and no directive. -/
theorem mnemonic_isWord (i : Instr) : IsWord i.mnemonic.toList ∧ isDirective i.mnemonic.toList = false := by
  have h := List.all_eq_true.mp opcodeMap_words _ (mnemonic_mem i)
  simp only [Bool.and_eq_true, Bool.not_eq_true', List.isEmpty_eq_false_iff, List.all_eq_true] at h
  exact ⟨⟨h.1.2, h.1.1⟩, h.2⟩

/-! ## The tokens of a term's text -/

theorem operandTexts_ne_nil (i : Instr) : i.operandTexts ≠ [] := by
  unfold Instr.operandTexts; cases i.layout <;> simp

/-- The canonical text of a term is tokenized, up to and with its semicolon, into tokens that are read as the term, whatever
text follows. -/
theorem encode_tokens {i : Instr} (hi : Laws.Spelling.Statement i) (h : i.Spelled) :
    ∃ ts, (∀ rest, lexFrom .gap (encode i ++ rest) = ts ++ .semi :: lexFrom .gap rest) ∧ .semi ∉ ts ∧
      readStatement ts = .ok i := by
  have hf := operandTexts_read h
  obtain ⟨hmw, hmd⟩ := mnemonic_isWord i
  obtain ⟨sh, hs, hb⟩ := hi
  obtain ⟨t, texts, ht⟩ := List.exists_cons_of_ne_nil (operandTexts_ne_nil i)
  rw [ht] at hf
  obtain ⟨o, os, ho, hos, hoe⟩ := List.forall₂_cons_left_iff.mp hf
  obtain ⟨ts, hl, hr, hp⟩ := joinOperands_read t o ho texts os hos
  refine ⟨.word i.mnemonic.toList :: ts, fun rest => ?_, fun hm => ?_, ?_⟩
  · rw [encode, ht, List.append_assoc, List.cons_append, List.append_assoc, lex_word_cons _ _ hmw.1 hmw.2 (by decide),
      lexFrom_gap_space, List.singleton_append, hl]
    rfl
  · rcases List.mem_cons.mp hm with hm | hm
    · cases hm
    · rcases hp _ hm with h | h <;> cases h
  · have hex : hasExcluded (.word i.mnemonic.toList :: ts) = false := excludedFrom_eq_false true ts hp
    have hot : operandToks ts = splitComma ts := by
      cases ts with
      | nil => simp [splitComma, readOperands, readOperand, barCount] at hr
      | cons => rfl
    rw [readStatement, if_neg (by rw [hex]; simp)]
    simp only [hmd, readMnemonic, hs, hot, hr]
    rw [← hoe]
    exact hb

end Sys2Proof
end

