-- ==== Sys2Proof/Tests/Slice0.lean ====
section
/-! SUPPORT. The model's own tests: the ill-formed terms and texts of spec/95_test_vectors.md section 2.10, every form
decoded from a statement written out from its template in spec/30_encoding.md R82 and R92, one step of every form on values
of spec/95_test_vectors.md section 2, the faults of its section 2.10, and a witness for every statement with hypotheses. -/

namespace Sys2Proof.Tests

open Sys2Proof.Machine

set_option Elab.async false

/-- A register name. -/
abbrev n (s : String) : RegName := s.toList

/-- A register operand. -/
abbrev r (s : String) : Src := .reg s.toList

/-- The parameters of the refusal vectors: a, b, c, d 32 bits; h, g 16; w 64; p, q predicates. -/
def refParams : Params :=
  { program := []
    decl := [(n "a", .w32), (n "b", .w32), (n "c", .w32), (n "d", .w32), (n "h", .w16), (n "g", .w16), (n "w", .w64),
      (n "p", .pred), (n "q", .pred)]
    ptxVersion := ⟨8, 2⟩
    smTarget := 70 }

/-- The first failing check of a program text under the refusal vectors' parameters. -/
def refusal (p : Params) (text : String) : Option IllFormed :=
  match ({ p with program := text.toList } : Params).statements with
  | .ok _ => none
  | .error e => some e

/-! ## Refusals: vectors V-REF-1 to V-REF-28, and program P9 -/

theorem test_ref_1 : refusal refParams "mov.b32 d, a;" = some .unknownOpcode := by decide +kernel
theorem test_ref_2 : refusal refParams "cnot.pred p, q;" = some .badQualifiers := by decide +kernel
theorem test_ref_3 : refusal refParams "shl.u32 d, a, b;" = some .badQualifiers := by decide +kernel
theorem test_ref_4 : refusal refParams "and.u32 d, a, b;" = some .badQualifiers := by decide +kernel
theorem test_ref_5 : refusal refParams "lop3.b64 w, w, w, w, 0x80;" = some .badQualifiers := by decide +kernel
theorem test_ref_6 : refusal refParams "shf.l.b32 d, a, b, c;" = some .badQualifiers := by decide +kernel
theorem test_ref_7 : refusal refParams "lop3.xor.b32 d|p, a, b, c, 0x80, q;" = some .badQualifiers := by decide +kernel
theorem test_ref_8 : refusal refParams "and.b32 d, a;" = some .operandCount := by decide +kernel
theorem test_ref_9 : refusal refParams "lop3.or.b32 d|p, a, b, c, 0x80;" = some .operandCount := by decide +kernel
theorem test_ref_10 : refusal refParams "and.b32 5, a, b;" = some .badDestination := by decide +kernel
theorem test_ref_11 : refusal refParams "and.b32 _, a, b;" = some .sinkMisuse := by decide +kernel
theorem test_ref_12 : refusal refParams "lop3.b32 _, a, b, c, 0x80;" = some .sinkMisuse := by decide +kernel
theorem test_ref_13 : refusal refParams "lop3.or.b32 d|_, a, b, c, 0x80, q;" = some .sinkMisuse := by decide +kernel
theorem test_ref_14 : refusal refParams "and.b32 d, a, zz;" = some .undeclaredRegister := by decide +kernel
theorem test_ref_15 : refusal refParams "shl.b16 h, g, g;" = some .widthMismatch := by decide +kernel
theorem test_ref_16 : refusal refParams "and.b32 d, a, h;" = some .widthMismatch := by decide +kernel
theorem test_ref_17 : refusal refParams "shr.s64 w, w, w;" = some .widthMismatch := by decide +kernel
theorem test_ref_18 : refusal refParams "and.pred p, q, a;" = some .widthMismatch := by decide +kernel
theorem test_ref_19 : refusal refParams "and.b16 h, g, 0x10000;" = some .literalMisuse := by decide +kernel
theorem test_ref_20 : refusal refParams "and.pred p, q, 1;" = some .literalMisuse := by decide +kernel
theorem test_ref_21 : refusal refParams "lop3.b32 d, a, b, c, 256;" = some .badImmLut := by decide +kernel
theorem test_ref_22 : refusal refParams "lop3.b32 d, a, b, c, a;" = some .badImmLut := by decide +kernel
theorem test_ref_23 : refusal { refParams with smTarget := 50 } "lop3.or.b32 d|p, a, b, c, 0x80, q;" = some .versionOrTarget := by decide +kernel
theorem test_ref_24 : refusal { refParams with smTarget := 30 } "shf.l.wrap.b32 d, a, b, c;" = some .versionOrTarget := by decide +kernel
theorem test_ref_25 : refusal { refParams with ptxVersion := ⟨4, 2⟩ } "lop3.b32 d, a, b, c, 0x80;" = some .versionOrTarget := by decide +kernel
theorem test_ref_26 : refusal refParams "@p and.b32 d, a, b;" = some .excludedSyntax := by decide +kernel
theorem test_ref_27 : refusal refParams "and.pred p, !q, q;" = some .excludedSyntax := by decide +kernel
theorem test_ref_28 : refusal refParams "or.b32  mask mask,0x00010001" = some .badPunctuation := by decide +kernel

/-- `lop3.b32` is accepted at `sm_50` (V-REF-23). -/
theorem test_ref_23_plain_accepted :
    refusal { refParams with smTarget := 50 } "lop3.b32 d, a, b, c, 0x80;" = none := by decide +kernel

/-- Why a step is refused, if it is. -/
def refusedWith (o : Host.Outcome State Fault Refusal) : Option Refusal :=
  match o with
  | .next _ => none
  | .fault _ => none
  | .refused e => some e

/-- P9: one ill-formed statement refuses the program at its first step. -/
theorem test_p9_refused :
    refusedWith (step (State.launch
      { refParams with program := "and.b32 d, a, b;\nshl.b16 h, h, h;\nor.b32 d, d, 1;".toList } [])) =
      some (.illFormed .widthMismatch) := by decide +kernel

/-- More spellings that R87, R107, R110 and R111 exclude. -/
theorem test_ref_spellings :
    refusal refParams "and.b32 d, a, 010;" = some .literalMisuse ∧
    refusal refParams "and.b32 d, a, -5;" = some .literalMisuse ∧
    refusal refParams "and.b32 d, a, 0x;" = some .literalMisuse ∧
    refusal refParams "and.b32 d, a, %tid.x;" = some .excludedSyntax ∧
    refusal refParams ".reg .b32 a;" = some .excludedSyntax ∧
    refusal refParams "L: and.b32 d, a, b;" = some .excludedSyntax ∧
    refusal refParams "and.b32 d, a, b" = some .badPunctuation ∧
    refusal refParams "lop3.or.b32 d p, a, b, c, 0x80, q;" = some .badPunctuation ∧
    refusal refParams "and.b32 d|p, a, b;" = some .operandCount ∧
    refusal refParams "lop3.or.b32 d, a, b, c, 0x80, q;" = some .operandCount := by decide +kernel

/-- Constant expressions (R110), with and without a minus sign; a sign in front of a numeral is a spelling that R87 does not
admit (R107). `%` is no operator (the model's choice, notes/assumptions/7.md). -/
theorem test_ref_expressions :
    refusal refParams "and.b32 d, a, 5-3;" = some .excludedSyntax ∧
    refusal refParams "and.b32 d, a, a-1;" = some .excludedSyntax ∧
    refusal refParams "and.b32 d, a, -5-3;" = some .excludedSyntax ∧
    refusal refParams "and.b32 d, a, 5 + 3;" = some .excludedSyntax ∧
    refusal refParams "and.b32 d, a, 5|3;" = some .excludedSyntax ∧
    refusal refParams "and.b32 d, a, 5||3;" = some .excludedSyntax ∧
    refusal refParams "lop3.b32 d, a, b, c, 0xF0|0x0F;" = some .excludedSyntax ∧
    refusal refParams "and.b32 d, a, b|c;" = some .operandCount ∧
    refusal refParams "and.b32 d, a, 5%3;" = some .literalMisuse ∧
    refusal refParams "and.b32 d, a, 5 % 3;" = some .badPunctuation ∧
    refusal refParams "and.b32 d, a, b%c;" = some .excludedSyntax ∧
    refusal refParams "lop3.or.b32 d|-1, a, b, c, 0x80, q;" = some .literalMisuse := by decide +kernel

/-! ## WellFormed: an ill-formed term for each check, refused by it -/

theorem smoke_undeclared : (Instr.andB32 (n "d") (r "a") (r "zz")).check refParams = some .undeclaredRegister := by decide +kernel
theorem smoke_not_a_name : (Instr.andB32 (n "d") (r "a") (r "5x")).check refParams = some .undeclaredRegister := by decide +kernel
theorem smoke_width_source : (Instr.shlB64 (n "w") (r "w") (r "w")).check refParams = some .widthMismatch := by decide +kernel
theorem smoke_width_destination : (Instr.notB32 (n "h") (r "a")).check refParams = some .widthMismatch := by decide +kernel
theorem smoke_literal_too_wide : (Instr.xorB16 (n "h") (r "g") (.imm 0x10000)).check refParams = some .literalMisuse := by decide +kernel
theorem smoke_predicate_literal : (Instr.notPred (n "p") (.imm 1)).check refParams = some .literalMisuse := by decide +kernel
theorem smoke_lut : (Instr.lop3B32 (n "d") (r "a") (r "b") (r "c") 256).check refParams = some .badImmLut := by decide +kernel
theorem smoke_sink : (Instr.lop3OrB32 .sink (n "_") (r "a") (r "b") (r "c") 0 (r "q")).check refParams = some .sinkMisuse := by decide +kernel
theorem smoke_target : (Instr.shfLClampB32 (n "d") (r "a") (r "b") (r "c")).check { refParams with smTarget := 31 } = some .versionOrTarget := by decide +kernel
theorem smoke_version : (Instr.lop3AndB32 .sink (n "p") (r "a") (r "b") (r "c") 0 (r "q")).check { refParams with ptxVersion := ⟨8, 1⟩ } = some .versionOrTarget := by decide +kernel

/-! ## Decoding: each form from its template, with names of R86 and literals of R87 -/

theorem test_decode_and_pred : decode "and.pred d1, q0, %r2;".toList = .ok (.andPred (n "d1") (r "q0") (r "%r2")) := by decide +kernel
theorem test_decode_and_b16 : decode "and.b16 d1,q0,0x0F;".toList = .ok (.andB16 (n "d1") (r "q0") (.imm 15)) := by decide +kernel
theorem test_decode_and_b32 : decode "and.b32 d1,q0,0x0F;".toList = .ok (.andB32 (n "d1") (r "q0") (.imm 15)) := by decide +kernel
theorem test_decode_and_b64 : decode "and.b64 d1,q0,0x0F;".toList = .ok (.andB64 (n "d1") (r "q0") (.imm 15)) := by decide +kernel
theorem test_decode_or_pred : decode "or.pred d1, q0, %r2;".toList = .ok (.orPred (n "d1") (r "q0") (r "%r2")) := by decide +kernel
theorem test_decode_or_b16 : decode "or.b16 d1,q0,0x0F;".toList = .ok (.orB16 (n "d1") (r "q0") (.imm 15)) := by decide +kernel
theorem test_decode_or_b32 : decode "or.b32 d1,q0,0x0F;".toList = .ok (.orB32 (n "d1") (r "q0") (.imm 15)) := by decide +kernel
theorem test_decode_or_b64 : decode "or.b64 d1,q0,0x0F;".toList = .ok (.orB64 (n "d1") (r "q0") (.imm 15)) := by decide +kernel
theorem test_decode_xor_pred : decode "xor.pred d1, q0, %r2;".toList = .ok (.xorPred (n "d1") (r "q0") (r "%r2")) := by decide +kernel
theorem test_decode_xor_b16 : decode "xor.b16 d1,q0,0x0F;".toList = .ok (.xorB16 (n "d1") (r "q0") (.imm 15)) := by decide +kernel
theorem test_decode_xor_b32 : decode "xor.b32 d1,q0,0x0F;".toList = .ok (.xorB32 (n "d1") (r "q0") (.imm 15)) := by decide +kernel
theorem test_decode_xor_b64 : decode "xor.b64 d1,q0,0x0F;".toList = .ok (.xorB64 (n "d1") (r "q0") (.imm 15)) := by decide +kernel
theorem test_decode_not_pred : decode "not.pred d1, q0;".toList = .ok (.notPred (n "d1") (r "q0")) := by decide +kernel
theorem test_decode_not_b16 : decode "not.b16 d1, q0;".toList = .ok (.notB16 (n "d1") (r "q0")) := by decide +kernel
theorem test_decode_not_b32 : decode "not.b32 d1, q0;".toList = .ok (.notB32 (n "d1") (r "q0")) := by decide +kernel
theorem test_decode_not_b64 : decode "not.b64 d1, q0;".toList = .ok (.notB64 (n "d1") (r "q0")) := by decide +kernel
theorem test_decode_cnot_b16 : decode "cnot.b16 d1, q0;".toList = .ok (.cnotB16 (n "d1") (r "q0")) := by decide +kernel
theorem test_decode_cnot_b32 : decode "cnot.b32 d1, q0;".toList = .ok (.cnotB32 (n "d1") (r "q0")) := by decide +kernel
theorem test_decode_cnot_b64 : decode "cnot.b64 d1, q0;".toList = .ok (.cnotB64 (n "d1") (r "q0")) := by decide +kernel
theorem test_decode_lop3_b32 : decode "lop3.b32 d, a, b, c, 0x1a;".toList = .ok (.lop3B32 (n "d") (r "a") (r "b") (r "c") 26) := by decide +kernel
theorem test_decode_lop3_or_b32 : decode "lop3.or.b32 d|p, a, b, c, 0x3f, q;".toList = .ok (.lop3OrB32 (.reg (n "d")) (n "p") (r "a") (r "b") (r "c") 63 (r "q")) := by decide +kernel
theorem test_decode_lop3_and_b32 : decode "lop3.and.b32 _|p, a, b, c, 255, q;".toList = .ok (.lop3AndB32 .sink (n "p") (r "a") (r "b") (r "c") 255 (r "q")) := by decide +kernel
theorem test_decode_shf_l_clamp_b32 : decode "shf.l.clamp.b32 d, a, b, 16;".toList = .ok (.shfLClampB32 (n "d") (r "a") (r "b") (.imm 16)) := by decide +kernel
theorem test_decode_shf_l_wrap_b32 : decode "shf.l.wrap.b32 d, a, b, 16;".toList = .ok (.shfLWrapB32 (n "d") (r "a") (r "b") (.imm 16)) := by decide +kernel
theorem test_decode_shf_r_clamp_b32 : decode "shf.r.clamp.b32 d, a, b, 16;".toList = .ok (.shfRClampB32 (n "d") (r "a") (r "b") (.imm 16)) := by decide +kernel
theorem test_decode_shf_r_wrap_b32 : decode "shf.r.wrap.b32 d, a, b, 16;".toList = .ok (.shfRWrapB32 (n "d") (r "a") (r "b") (.imm 16)) := by decide +kernel
theorem test_decode_shl_b16 : decode "shl.b16 d1,  q0, 2;".toList = .ok (.shlB16 (n "d1") (r "q0") (.imm 2)) := by decide +kernel
theorem test_decode_shl_b32 : decode "shl.b32 d1,  q0, 2;".toList = .ok (.shlB32 (n "d1") (r "q0") (.imm 2)) := by decide +kernel
theorem test_decode_shl_b64 : decode "shl.b64 d1,  q0, 2;".toList = .ok (.shlB64 (n "d1") (r "q0") (.imm 2)) := by decide +kernel
theorem test_decode_shr_b16 : decode "shr.b16 d1,  q0, 2;".toList = .ok (.shrB16 (n "d1") (r "q0") (.imm 2)) := by decide +kernel
theorem test_decode_shr_b32 : decode "shr.b32 d1,  q0, 2;".toList = .ok (.shrB32 (n "d1") (r "q0") (.imm 2)) := by decide +kernel
theorem test_decode_shr_b64 : decode "shr.b64 d1,  q0, 2;".toList = .ok (.shrB64 (n "d1") (r "q0") (.imm 2)) := by decide +kernel
theorem test_decode_shr_u16 : decode "shr.u16 d1,  q0, 2;".toList = .ok (.shrU16 (n "d1") (r "q0") (.imm 2)) := by decide +kernel
theorem test_decode_shr_u32 : decode "shr.u32 d1,  q0, 2;".toList = .ok (.shrU32 (n "d1") (r "q0") (.imm 2)) := by decide +kernel
theorem test_decode_shr_u64 : decode "shr.u64 d1,  q0, 2;".toList = .ok (.shrU64 (n "d1") (r "q0") (.imm 2)) := by decide +kernel
theorem test_decode_shr_s16 : decode "shr.s16 d1,  q0, 2;".toList = .ok (.shrS16 (n "d1") (r "q0") (.imm 2)) := by decide +kernel
theorem test_decode_shr_s32 : decode "shr.s32 d1,  q0, 2;".toList = .ok (.shrS32 (n "d1") (r "q0") (.imm 2)) := by decide +kernel
theorem test_decode_shr_s64 : decode "shr.s64 d1,  q0, 2;".toList = .ok (.shrS64 (n "d1") (r "q0") (.imm 2)) := by decide +kernel

/-- Comments, blank lines and free white space (R94); the source's rotate example. -/
theorem test_transcribe_layout :
    transcribe "shf.r.clamp.b32  r1,r0,r0,n;  // rotate right by n; n < 32\n\n\tnot.b32  mask,mask;".toList =
      .ok [.shfRClampB32 (n "r1") (r "r0") (r "r0") (r "n"), .notB32 (n "mask") (r "mask")] := by decide +kernel

/-- The canonical text of spec/95_test_vectors.md: P4 statements 1 and 2, P6 statement 2, P7 statement 9. -/
theorem test_encode_canonical :
    encode (.andB32 (n "r2") (r "r0") (.imm 65535)) = "and.b32 r2, r0, 0x0000FFFF;".toList ∧
    encode (.shrU32 (n "r3") (r "r0") (.imm 16)) = "shr.u32 r3, r0, 16;".toList ∧
    encode (.lop3AndB32 .sink (n "r") (r "t") (r "m") (r "c") 128 (r "p")) = "lop3.and.b32 _|r, t, m, c, 0x80, p;".toList ∧
    encode (.orB16 (n "j") (r "i") (.imm 240)) = "or.b16 j, i, 0x00F0;".toList := by decide +kernel

/-- A literal that does not fit its position is spelled with its value, and refused where its term is (R93, R107, R108). -/
theorem test_encode_too_large :
    encode (.xorB16 (n "h") (r "g") (.imm 0x10000)) = "xor.b16 h, g, 0x10000;".toList ∧
    encode (.lop3B32 (n "d") (r "a") (r "b") (r "c") 256) = "lop3.b32 d, a, b, c, 0x100;".toList ∧
    encode (.shlB32 (n "d") (r "a") (.imm 12345678901)) = "shl.b32 d, a, 12345678901;".toList := by decide +kernel

/-- The text "not.b32 d, a;" as a table word: its first character in bits 7 to 0. -/
theorem test_table_word :
    decodeTableWord 104 0x3b61202c64203233622e746f6e = some (.notB32 (n "d") (r "a")) := by decide +kernel

/-- The statement of a table word is what the first step after reset executes. -/
theorem test_with_fetch_word :
    (match step (State.reset.withFetchWord 104 0x3b61202c64203233622e746f6e) with
      | .next t => some (t.readReg .w32 (n "d"), t.pc, t.fault)
      | .fault _ => none
      | .refused _ => none) = some (some 0xFFFFFFFF, 1, none) := by decide +kernel

/-! ## One step of every form: values of spec/95_test_vectors.md section 2 -/

/-- A state in which the given registers hold values, for running one instruction. -/
def st (values : List (RegName × Value)) : State :=
  State.launch refParams values

/-- The value of class `w` that a register holds after an instruction, or none. -/
def after (w : Width) (d : String) (i : Instr) (values : List (RegName × Value)) : Option (BitVec w.bits) :=
  match exec i (st values) with
  | .next t => if t.fault = none ∧ t.pc = 1 then t.readReg w (n d) else none
  | .fault _ => none
  | .refused _ => none

/-- V-AND-9. -/
theorem test_and_pred : after .pred "d" (.andPred (n "d") (r "a") (r "b")) [(n "a", .pred 1), (n "b", .pred 0)] = some 0 := by decide +kernel
/-- V-AND-2. -/
theorem test_and_b16 : after .w16 "d" (.andB16 (n "d") (r "a") (r "b")) [(n "a", .b16 0xF0F0), (n "b", .b16 0x3C3C)] = some 0x3030 := by decide +kernel
/-- V-AND-3. -/
theorem test_and_b32 : after .w32 "d" (.andB32 (n "d") (r "a") (r "b")) [(n "a", .b32 0x12345678), (n "b", .b32 0x0F0F0F0F)] = some 0x02040608 := by decide +kernel
/-- V-AND-4. -/
theorem test_and_b64 : after .w64 "d" (.andB64 (n "d") (r "a") (r "b")) [(n "a", .b64 0xFEDCBA9876543210), (n "b", .b64 0x00000000FFFFFFFF)] = some 0x0000000076543210 := by decide +kernel
/-- V-OR-6. -/
theorem test_or_pred : after .pred "d" (.orPred (n "d") (r "a") (r "b")) [(n "a", .pred 0), (n "b", .pred 1)] = some 1 := by decide +kernel
/-- V-OR-2. -/
theorem test_or_b16 : after .w16 "d" (.orB16 (n "d") (r "a") (r "b")) [(n "a", .b16 0xF0F0), (n "b", .b16 0x3C3C)] = some 0xFCFC := by decide +kernel
/-- V-OR-3. -/
theorem test_or_b32 : after .w32 "d" (.orB32 (n "d") (r "a") (r "b")) [(n "a", .b32 0x12345678), (n "b", .b32 0x0F0F0F0F)] = some 0x1F3F5F7F := by decide +kernel
/-- V-OR-4. -/
theorem test_or_b64 : after .w64 "d" (.orB64 (n "d") (r "a") (r "b")) [(n "a", .b64 0xFEDCBA9800000000), (n "b", .b64 0x0000000076543210)] = some 0xFEDCBA9876543210 := by decide +kernel
/-- V-XOR-9. -/
theorem test_xor_pred : after .pred "d" (.xorPred (n "d") (r "a") (r "b")) [(n "a", .pred 1), (n "b", .pred 1)] = some 0 := by decide +kernel
/-- V-XOR-2. -/
theorem test_xor_b16 : after .w16 "d" (.xorB16 (n "d") (r "a") (r "b")) [(n "a", .b16 0xF0F0), (n "b", .b16 0x3C3C)] = some 0xCCCC := by decide +kernel
/-- V-XOR-3. -/
theorem test_xor_b32 : after .w32 "d" (.xorB32 (n "d") (r "a") (r "b")) [(n "a", .b32 0x12345678), (n "b", .b32 0xFFFF0000)] = some 0xEDCB5678 := by decide +kernel
/-- V-XOR-4. -/
theorem test_xor_b64 : after .w64 "d" (.xorB64 (n "d") (r "a") (r "b")) [(n "a", .b64 0xFEDCBA9876543210), (n "b", .b64 0x0123456789ABCDEF)] = some 0xFFFFFFFFFFFFFFFF := by decide +kernel
/-- V-NOT-5, in place. -/
theorem test_not_pred : after .pred "d" (.notPred (n "d") (r "d")) [(n "d", .pred 1)] = some 0 := by decide +kernel
/-- V-NOT-2, in place. -/
theorem test_not_b16 : after .w16 "d" (.notB16 (n "d") (r "d")) [(n "d", .b16 0x1234)] = some 0xEDCB := by decide +kernel
/-- V-NOT-3, in place. -/
theorem test_not_b32 : after .w32 "d" (.notB32 (n "d") (r "d")) [(n "d", .b32 0x0000FFFF)] = some 0xFFFF0000 := by decide +kernel
/-- V-NOT-4, in place. -/
theorem test_not_b64 : after .w64 "d" (.notB64 (n "d") (r "d")) [(n "d", .b64 0x0123456789ABCDEF)] = some 0xFEDCBA9876543210 := by decide +kernel
/-- V-CNOT-1, in place. -/
theorem test_cnot_b16 : after .w16 "d" (.cnotB16 (n "d") (r "d")) [(n "d", .b16 0x0100)] = some 0 := by decide +kernel
/-- V-CNOT-4, in place. -/
theorem test_cnot_b32 : after .w32 "d" (.cnotB32 (n "d") (r "d")) [(n "d", .b32 0)] = some 1 := by decide +kernel
/-- V-CNOT-3, in place. -/
theorem test_cnot_b64 : after .w64 "d" (.cnotB64 (n "d") (r "d")) [(n "d", .b64 0x0000000100000000)] = some 0 := by decide +kernel
/-- V-LOP3-4. -/
theorem test_lop3_b32 : after .w32 "d" (.lop3B32 (n "d") (r "a") (r "b") (r "c") 0x1A) [(n "a", .b32 0xFFFF0000), (n "b", .b32 0xFF00FF00), (n "c", .b32 0xF0F0F0F0)] = some 0x000FF0F0 := by decide +kernel
/-- V-LOP3-29: unrelated values, operands in order. -/
theorem test_lop3_b32_select : after .w32 "a" (.lop3B32 (n "a") (r "a") (r "b") (r "c") 0xCA) [(n "a", .b32 0x12345678), (n "b", .b32 0x9ABCDEF0), (n "c", .b32 0x0F1E2D3C)] = some 0x1F3E7F74 := by decide +kernel
/-- V-LOP3-14. -/
theorem test_lop3_or_b32 : after .pred "p" (.lop3OrB32 (.reg (n "d")) (n "p") (.imm 0xFFFFFFFF) (.imm 0xFFFFFFFF) (r "c") 0x3F (r "q")) [(n "a", .b32 0xFFFF0000), (n "b", .b32 0xFF00FF00), (n "c", .b32 0xF0F0F0F0), (n "q", .pred 1)] = some 1 := by decide +kernel
/-- V-LOP3-12: the 32-bit destination. -/
theorem test_lop3_or_b32_d : after .w32 "d" (.lop3OrB32 (.reg (n "d")) (n "p") (r "a") (r "b") (r "c") 0x3F (r "q")) [(n "a", .b32 0xFFFF0000), (n "b", .b32 0xFF00FF00), (n "c", .b32 0xF0F0F0F0), (n "q", .pred 0)] = some 0x00FFFFFF := by decide +kernel
/-- V-LOP3-15: the sink; `p` and `q` the same register. -/
theorem test_lop3_and_b32 : after .pred "q" (.lop3AndB32 .sink (n "q") (r "a") (r "b") (r "c") 0x3F (r "q")) [(n "a", .b32 0xFFFF0000), (n "b", .b32 0xFF00FF00), (n "c", .b32 0xF0F0F0F0), (n "q", .pred 1)] = some 1 := by decide +kernel
/-- V-LOP3-17: a result of 0. -/
theorem test_lop3_and_b32_zero : after .pred "p" (.lop3AndB32 .sink (n "p") (.imm 0xFFFFFFFF) (.imm 0xFFFFFFFF) (r "c") 0x3F (r "q")) [(n "a", .b32 0xFFFF0000), (n "b", .b32 0xFF00FF00), (n "c", .b32 0xF0F0F0F0), (n "q", .pred 1)] = some 0 := by decide +kernel
/-- V-SHF-4. -/
theorem test_shf_l_clamp_b32_1 : after .w32 "d" (.shfLClampB32 (n "d") (r "a") (r "b") (r "c")) [(n "a", .b32 0x89ABCDEF), (n "b", .b32 0x01234567), (n "c", .b32 8)] = some 0x23456789 := by decide +kernel
/-- V-SHF-9. -/
theorem test_shf_l_clamp_b32_2 : after .w32 "d" (.shfLClampB32 (n "d") (r "a") (r "b") (r "c")) [(n "a", .b32 0x89ABCDEF), (n "b", .b32 0x01234567), (n "c", .b32 0x80000000)] = some 0x89ABCDEF := by decide +kernel
/-- V-SHF-14. -/
theorem test_shf_l_wrap_b32_1 : after .w32 "d" (.shfLWrapB32 (n "d") (r "a") (r "b") (r "c")) [(n "a", .b32 0x89ABCDEF), (n "b", .b32 0x01234567), (n "c", .b32 0x20)] = some 0x01234567 := by decide +kernel
/-- V-SHF-17. -/
theorem test_shf_l_wrap_b32_2 : after .w32 "d" (.shfLWrapB32 (n "d") (r "a") (r "b") (r "c")) [(n "a", .b32 0x89ABCDEF), (n "b", .b32 0x01234567), (n "c", .b32 0xFFFFFFFF)] = some 0xC4D5E6F7 := by decide +kernel
/-- V-SHF-21. -/
theorem test_shf_r_clamp_b32_1 : after .w32 "d" (.shfRClampB32 (n "d") (r "a") (r "b") (r "c")) [(n "a", .b32 0x89ABCDEF), (n "b", .b32 0x01234567), (n "c", .b32 8)] = some 0x6789ABCD := by decide +kernel
/-- V-SHF-25. -/
theorem test_shf_r_clamp_b32_2 : after .w32 "d" (.shfRClampB32 (n "d") (r "a") (r "b") (r "c")) [(n "a", .b32 0x89ABCDEF), (n "b", .b32 0x01234567), (n "c", .b32 0x21)] = some 0x01234567 := by decide +kernel
/-- V-SHF-31. -/
theorem test_shf_r_wrap_b32_1 : after .w32 "d" (.shfRWrapB32 (n "d") (r "a") (r "b") (r "c")) [(n "a", .b32 0x89ABCDEF), (n "b", .b32 0x01234567), (n "c", .b32 0x24)] = some 0x789ABCDE := by decide +kernel
/-- V-SHF-29. -/
theorem test_shf_r_wrap_b32_2 : after .w32 "d" (.shfRWrapB32 (n "d") (r "a") (r "b") (r "c")) [(n "a", .b32 0x89ABCDEF), (n "b", .b32 0x01234567), (n "c", .b32 0x20)] = some 0x89ABCDEF := by decide +kernel
/-- V-SHL-3. -/
theorem test_shl_b16_1 : after .w16 "d" (.shlB16 (n "d") (r "a") (r "b")) [(n "a", .b16 0x1234), (n "b", .b32 4)] = some 0x2340 := by decide +kernel
/-- V-SHL-13. -/
theorem test_shl_b16_2 : after .w16 "d" (.shlB16 (n "d") (r "a") (r "b")) [(n "a", .b16 0x0001), (n "b", .b32 0x00010000)] = some 0 := by decide +kernel
/-- V-SHL-2. -/
theorem test_shl_b32_1 : after .w32 "d" (.shlB32 (n "d") (r "a") (r "b")) [(n "a", .b32 0xC0000001), (n "b", .b32 2)] = some 4 := by decide +kernel
/-- V-SHL-8. -/
theorem test_shl_b32_2 : after .w32 "d" (.shlB32 (n "d") (r "a") (r "b")) [(n "a", .b32 0xFFFFFFFF), (n "b", .b32 0x21)] = some 0 := by decide +kernel
/-- V-SHL-4. -/
theorem test_shl_b64_1 : after .w64 "d" (.shlB64 (n "d") (r "a") (r "b")) [(n "a", .b64 0x0000000100000001), (n "b", .b32 0x20)] = some 0x0000000100000000 := by decide +kernel
/-- V-SHL-17. -/
theorem test_shl_b64_2 : after .w64 "d" (.shlB64 (n "d") (r "a") (r "b")) [(n "a", .b64 0xFFFFFFFFFFFFFFFF), (n "b", .b32 0x100)] = some 0 := by decide +kernel
/-- V-SHR-4. -/
theorem test_shr_b16_1 : after .w16 "d" (.shrB16 (n "d") (r "a") (r "b")) [(n "a", .b16 0xF00F), (n "b", .b32 4)] = some 0x0F00 := by decide +kernel
/-- V-SHR-23. -/
theorem test_shr_b16_2 : after .w16 "d" (.shrB16 (n "d") (r "a") (r "b")) [(n "a", .b16 0xFFFF), (n "b", .b32 0x00010001)] = some 0 := by decide +kernel
/-- V-SHR-7. -/
theorem test_shr_b32_1 : after .w32 "d" (.shrB32 (n "d") (r "a") (r "b")) [(n "a", .b32 0xFFFFFFFE), (n "b", .b32 1)] = some 0x7FFFFFFF := by decide +kernel
/-- V-SHR-25. -/
theorem test_shr_b64_1 : after .w64 "d" (.shrB64 (n "d") (r "a") (r "b")) [(n "a", .b64 0xFEDCBA9876543210), (n "b", .b32 0x20)] = some 0xFEDCBA98 := by decide +kernel
/-- V-SHR-1. -/
theorem test_shr_u16_1 : after .w16 "d" (.shrU16 (n "d") (r "a") (r "b")) [(n "a", .b16 0x8004), (n "b", .b32 2)] = some 0x2001 := by decide +kernel
/-- V-SHR-21. -/
theorem test_shr_u16_2 : after .w16 "d" (.shrU16 (n "d") (r "a") (r "b")) [(n "a", .b16 0x8000), (n "b", .b32 0x10)] = some 0 := by decide +kernel
/-- V-SHR-6. -/
theorem test_shr_u32_1 : after .w32 "d" (.shrU32 (n "d") (r "a") (r "b")) [(n "a", .b32 0xFFFFFFFE), (n "b", .b32 1)] = some 0x7FFFFFFF := by decide +kernel
/-- V-SHR-15. -/
theorem test_shr_u32_2 : after .w32 "d" (.shrU32 (n "d") (r "a") (r "b")) [(n "a", .b32 0xFFFFFFFF), (n "b", .b32 0xFFFFFFFF)] = some 0 := by decide +kernel
/-- V-SHR-26. -/
theorem test_shr_u64_1 : after .w64 "d" (.shrU64 (n "d") (r "a") (r "b")) [(n "a", .b64 0x8000000000000000), (n "b", .b32 0x3F)] = some 1 := by decide +kernel
/-- V-SHR-29. -/
theorem test_shr_u64_2 : after .w64 "d" (.shrU64 (n "d") (r "a") (r "b")) [(n "a", .b64 0xFFFFFFFFFFFFFFFF), (n "b", .b32 0x40)] = some 0 := by decide +kernel
/-- V-SHR-5. -/
theorem test_shr_s16_1 : after .w16 "d" (.shrS16 (n "d") (r "a") (r "b")) [(n "a", .b16 0x8004), (n "b", .b32 2)] = some 0xE001 := by decide +kernel
/-- V-SHR-22. -/
theorem test_shr_s16_2 : after .w16 "d" (.shrS16 (n "d") (r "a") (r "b")) [(n "a", .b16 0x8000), (n "b", .b32 0x00010000)] = some 0xFFFF := by decide +kernel
/-- V-SHR-18. -/
theorem test_shr_s32_1 : after .w32 "d" (.shrS32 (n "d") (r "a") (r "b")) [(n "a", .b32 0xFFFFFFF9), (n "b", .b32 1)] = some 0xFFFFFFFC := by decide +kernel
/-- V-SHR-11. -/
theorem test_shr_s32_2 : after .w32 "d" (.shrS32 (n "d") (r "a") (r "b")) [(n "a", .b32 0x80000000), (n "b", .b32 0x20)] = some 0xFFFFFFFF := by decide +kernel
/-- V-SHR-32. -/
theorem test_shr_s64_1 : after .w64 "d" (.shrS64 (n "d") (r "a") (r "b")) [(n "a", .b64 0xFFFFFFFF00000000), (n "b", .b32 0x10)] = some 0xFFFFFFFFFFFF0000 := by decide +kernel
/-- V-SHR-30. -/
theorem test_shr_s64_2 : after .w64 "d" (.shrS64 (n "d") (r "a") (r "b")) [(n "a", .b64 0x8000000000000000), (n "b", .b32 0x100)] = some 0xFFFFFFFFFFFFFFFF := by decide +kernel

/-! ## Faults: vectors V-FLT-1, V-FLT-3, V-FLT-4, V-FLT-6, V-FLT-7, V-FLT-8 -/

/-- The fault mark, `pc` and `d` after an instruction. -/
def faultOf (i : Instr) (values : List (RegName × Value)) : Option (Option Fault × Nat × Option Value) :=
  match exec i (st values) with
  | .next t => some (t.fault, t.pc, t.regs.get (n "d"))
  | .fault _ => none
  | .refused _ => none

theorem test_flt_1 : faultOf (.andB32 (n "d") (r "a") (r "b")) [(n "a", .b32 0)] =
    some (some (.unwrittenRegisterRead 0 (n "b")), 0, none) := by decide +kernel
theorem test_flt_3 : faultOf (.xorB32 (n "d") (r "d") (r "d")) [] =
    some (some (.unwrittenRegisterRead 0 (n "d")), 0, none) := by decide +kernel
theorem test_flt_4 : faultOf (.lop3OrB32 (.reg (n "d")) (n "p") (r "a") (r "b") (r "c") 0xFF (r "q"))
      [(n "a", .b32 0), (n "b", .b32 0), (n "c", .b32 0)] =
    some (some (.unwrittenRegisterRead 0 (n "q")), 0, none) := by decide +kernel
theorem test_flt_6 : faultOf (.shfLClampB32 (n "d") (r "a") (r "b") (.imm 32)) [(n "a", .b32 5)] =
    some (some (.unwrittenRegisterRead 0 (n "b")), 0, none) := by decide +kernel
theorem test_flt_7 : faultOf (.shlB32 (n "d") (r "a") (.imm 2)) [(n "a", .b32 3)] =
    some (none, 1, some (.b32 0xC)) := by decide +kernel
theorem test_flt_8 : faultOf (.notPred (n "p") (r "q")) [] =
    some (some (.unwrittenRegisterRead 0 (n "q")), 0, none) := by decide +kernel

/-- The machine before a program is loaded has nothing to execute. -/
theorem test_step_reset : refusedWith (step State.reset) = some .finished := by decide +kernel

/-! ## Witnesses: for each statement with hypotheses a state and operands that meet them, at the edges of its clauses -/

/-- A state in which a, b, c, h, g, w, p and q hold values, and d holds none. -/
def full : State :=
  st [(n "a", .b32 0xFFFFFFFF), (n "b", .b32 0), (n "c", .b32 32), (n "h", .b16 0), (n "g", .b16 0x8000),
    (n "w", .b64 0x8000000000000000), (n "p", .pred 0), (n "q", .pred 1)]

/-- The operands of the two-source forms, as registers and as the largest literals: for `AndResult`, `OrResult` and
`XorResult`. -/
theorem witness_and_or_xor :
    (full.operand .pred (r "q") = .ok 1 ∧ full.operand .pred (r "p") = .ok 0) ∧
    (full.operand .w16 (r "g") = .ok 0x8000 ∧ full.operand .w16 (.imm 0xFFFF) = .ok 0xFFFF) ∧
    (full.operand .w32 (r "a") = .ok 0xFFFFFFFF ∧ full.operand .w32 (.imm 0xFFFFFFFF) = .ok 0xFFFFFFFF) ∧
    (full.operand .w64 (r "w") = .ok 0x8000000000000000 ∧
      full.operand .w64 (.imm 0xFFFFFFFFFFFFFFFF) = .ok 0xFFFFFFFFFFFFFFFF) := by decide +kernel

/-- For `NotResult` and `CnotResult`: a zero and a non-zero operand of each width. -/
theorem witness_not_cnot :
    (full.operand .pred (r "p") = .ok 0 ∧ full.operand .pred (r "q") = .ok 1) ∧
    (full.operand .w16 (r "h") = .ok 0 ∧ full.operand .w16 (r "g") = .ok 0x8000) ∧
    (full.operand .w32 (r "b") = .ok 0 ∧ full.operand .w32 (r "a") = .ok 0xFFFFFFFF) ∧
    (full.operand .w64 (.imm 0) = .ok 0 ∧ full.operand .w64 (r "w") = .ok 0x8000000000000000) := by decide +kernel

/-- For `Lop3Result`. -/
theorem witness_lop3 : full.operand .w32 (r "a") = .ok 0xFFFFFFFF ∧ full.operand .w32 (r "b") = .ok 0 ∧
    full.operand .w32 (.imm 7) = .ok 7 := by decide +kernel

/-- For `Lop3BoolResult`: the four operands, with a register and with the sink. -/
theorem witness_lop3_bool : full.operand .w32 (r "a") = .ok 0xFFFFFFFF ∧ full.operand .w32 (r "b") = .ok 0 ∧
    full.operand .w32 (r "c") = .ok 32 ∧ full.operand .pred (r "q") = .ok 1 ∧
    DstSink.reg (n "d") ≠ .reg (n "p") ∧ DstSink.sink ≠ .reg (n "p") := by decide +kernel

/-- For `Lop3BoolOpTable`: both values of q, and a table whose result is 0 and one whose result is not. -/
theorem witness_lop3_table : full.operand .w32 (r "a") = .ok 0xFFFFFFFF ∧ full.operand .w32 (r "b") = .ok 0 ∧
    full.operand .w32 (r "c") = .ok 32 ∧ full.operand .pred (r "q") = .ok 1 ∧ full.operand .pred (r "p") = .ok 0 ∧
    lop3Table 0x00 0xFFFFFFFF 0 32 = 0 ∧ lop3Table 0x10 0xFFFFFFFF 0 32 ≠ 0 := by decide +kernel

/-- For `ShfLeftResult`, `ShfRightResult`, `ShlResult`, `ShrZeroFillResult` and `ShrSignFillResult`: operands of each width,
and amounts at the edges of the clamps and of the wrap. -/
theorem witness_shift_amounts :
    full.operand .w32 (r "a") = .ok 0xFFFFFFFF ∧ full.operand .w32 (r "b") = .ok 0 ∧ full.operand .w16 (r "g") = .ok 0x8000 ∧
    full.operand .w64 (r "w") = .ok 0x8000000000000000 ∧ full.operand .w32 (r "c") = .ok 32 ∧
    full.operand .w32 (.imm 0) = .ok 0 ∧ full.operand .w32 (.imm 15) = .ok 15 ∧ full.operand .w32 (.imm 16) = .ok 16 ∧
    full.operand .w32 (.imm 31) = .ok 31 ∧ full.operand .w32 (.imm 33) = .ok 33 ∧ full.operand .w32 (.imm 63) = .ok 63 ∧
    full.operand .w32 (.imm 64) = .ok 64 ∧ full.operand .w32 (.imm 0xFFFFFFFF) = .ok 0xFFFFFFFF := by decide +kernel

/-- For `OperandValue`: the largest literal, a register with a value, a register without. -/
theorem witness_operand_value : 0xFFFF < 2 ^ Width.w16.bits ∧ full.regs.get (n "g") = some (Value.ofBits .w16 0x8000) ∧
    full.regs.get (n "d") = none := by decide +kernel

/-- For `RegisterWrite`: another register of another class, and a map in canonical form. -/
theorem witness_register_write : n "g" ≠ n "a" ∧ full.regs.wf = true := by decide +kernel

/-- For `UnwrittenReadFaults`: an unwritten first source, and an unwritten last source after three that can be read. -/
theorem witness_unwritten :
    ((Instr.andB32 (n "a") (r "d") (r "d")).reads = [] ++ (.w32, .reg (n "d")) :: [(.w32, r "d")] ∧
      (∀ x ∈ ([] : List (Width × Src)), ∃ v, full.operand x.1 x.2 = .ok v) ∧ full.regs.get (n "d") = none) ∧
    ((Instr.lop3OrB32 .sink (n "p") (r "a") (r "b") (.imm 1) 0 (r "z")).reads =
        [(.w32, r "a"), (.w32, r "b"), (.w32, .imm 1)] ++ (.pred, .reg (n "z")) :: [] ∧
      (∀ x ∈ [(Width.w32, r "a"), (.w32, r "b"), (.w32, .imm 1)], ∃ v, full.operand x.1 x.2 = .ok v) ∧
      full.regs.get (n "z") = none) :=
  ⟨⟨rfl, by simp, by decide +kernel⟩, rfl, (firstUnread_eq_none _ _).mp (by decide +kernel), by decide +kernel⟩

/-- For `EveryFormCompletes`. -/
theorem witness_readable : Readable (.shlB64 (n "w") (r "w") (r "c")) full :=
  (firstUnread_eq_none _ _).mp (by decide +kernel)

/-- For `ResultFromOperands`: two states that differ in a register that is no operand. -/
theorem witness_same_operands : Readable (.notB16 (n "h") (r "g")) full ∧
    (∀ x ∈ (Instr.notB16 (n "h") (r "g")).reads,
      full.operand x.1 x.2 = (full.writeReg .w32 (n "d") 5).operand x.1 x.2) ∧
    full ≠ full.writeReg .w32 (n "d") 5 := by
  refine ⟨(firstUnread_eq_none _ _).mp (by decide +kernel), fun x hx => ?_, by decide +kernel⟩
  rw [List.mem_singleton.mp hx]; decide +kernel

/-- The parameters of the refusal vectors with a program. -/
def prog (text : String) : Params := { refParams with program := text.toList }

/-- A one-statement program before its step, after it, and after the fault it takes when b holds no value. -/
def before : State := State.launch (prog "and.b32 d, a, b;") [(n "a", .b32 12), (n "b", .b32 10)]
def afterStep : State := { before with regs := before.regs.set (n "d") (.b32 8), pc := 1 }
def beforeFault : State := State.launch (prog "and.b32 d, a, b;") [(n "a", .b32 12)]
def afterFault : State := { beforeFault with fault := some (.unwrittenRegisterRead 0 (n "b")) }

/-- The state of an outcome. -/
def nextOf (o : Host.Outcome State Fault Refusal) : Option State :=
  match o with
  | .next t => some t
  | .fault _ => none
  | .refused _ => none

theorem next_of {o : Host.Outcome State Fault Refusal} {t : State} (h : nextOf o = some t) : o = .next t := by
  cases o <;> simp_all [nextOf]

theorem statements_before : before.params.statements = .ok [.andB32 (n "d") (r "a") (r "b")] := by decide +kernel

/-- For `FaultMark`, `StepAdvances` and `ParametersFixed`: a step that completes, a step that faults, a state with the mark
set, and `pc` at the end. -/
theorem witness_steps : step before = .next afterStep ∧ step beforeFault = .next afterFault ∧
    afterFault.fault = some (.unwrittenRegisterRead 0 (n "b")) ∧
    (afterStep.params.statements = .ok [.andB32 (n "d") (r "a") (r "b")] ∧ afterStep.pc = 1 ∧ afterStep.fault = none) ∧
    run 1 before = .next afterStep ∧ run 0 before = .next before :=
  ⟨next_of (by decide +kernel), next_of (by decide +kernel), rfl, ⟨statements_before, rfl, rfl⟩,
    next_of (by decide +kernel), rfl⟩

/-- For `IllFormedProgramRefused`. -/
theorem witness_ill_formed : (State.launch (prog "and.b32 d, a;") []).fault = none ∧
    (prog "and.b32 d, a;").statements = .error .operandCount := by decide +kernel

/-- For `UnavailableFormRefused`: `shf` under `sm_31`. -/
theorem witness_unavailable :
    transcribe "shf.l.wrap.b32 d, a, b, c;".toList = .ok [.shfLWrapB32 (n "d") (r "a") (r "b") (r "c")] ∧
    (State.launch { prog "shf.l.wrap.b32 d, a, b, c;" with smTarget := 31 } []).fault = none ∧
    ¬ Allows { prog "shf.l.wrap.b32 d, a, b, c;" with smTarget := 31 } 3 1 32 :=
  ⟨by decide +kernel, rfl, fun h => absurd h.2 (by decide +kernel)⟩

/-- For `StepRunsDecoded`. -/
theorem witness_step_runs : before.fault = none ∧
    transcribe before.params.program = .ok [.andB32 (n "d") (r "a") (r "b")] ∧
    (Instr.andB32 (n "d") (r "a") (r "b")).WellFormed before.params ∧
    [Instr.andB32 (n "d") (r "a") (r "b")][before.pc]? = some (.andB32 (n "d") (r "a") (r "b")) := by decide +kernel

/-- For `FinishedStops`: a finished state, and one that is not. -/
theorem witness_finished : Finished afterStep ∧ ¬ Finished afterFault :=
  ⟨⟨rfl, _, statements_before, rfl⟩, fun h => by cases h.1⟩

/-- For `LaunchState`: distinct names, one of them, and another. -/
theorem witness_launch :
    (([(n "a", .b32 12), (n "b", .b32 10)] : List (RegName × Value)).map Prod.fst).Nodup ∧
    (n "b", Value.b32 10) ∈ [(n "a", Value.b32 12), (n "b", .b32 10)] ∧
    n "d" ∉ ([(n "a", .b32 12), (n "b", .b32 10)] : List (RegName × Value)).map Prod.fst := by decide +kernel

/-- For `LaunchInv`, and for `FinishesIffAssignedBeforeUse` with both answers. -/
theorem witness_fits :
    before.params.statements = .ok [.andB32 (n "d") (r "a") (r "b")] ∧
    launchFits before.params.decl [(n "a", .b32 12), (n "b", .b32 10)] = true ∧
    assignedBeforeUse [n "a", n "b"] [.andB32 (n "d") (r "a") (r "b")] = true ∧
    launchFits before.params.decl [(n "a", .b32 12)] = true ∧
    assignedBeforeUse [n "a"] [.andB32 (n "d") (r "a") (r "b")] = false := by decide +kernel

theorem stateInv_before : StateInv before :=
  ⟨by decide +kernel, ofList_class (vs := [(n "a", .b32 12), (n "b", .b32 10)]) (by decide +kernel),
    ⟨_, statements_before, Nat.zero_le _⟩, fun _ _ h => by cases h⟩

theorem stateInv_beforeFault : StateInv beforeFault :=
  ⟨by decide +kernel, ofList_class (vs := [(n "a", .b32 12)]) (by decide +kernel),
    ⟨_, statements_before, Nat.zero_le _⟩, fun _ _ h => by cases h⟩

/-- For `StepKeepsInv` and `EveryRunEnds`: a step that completes and one that faults, from states of the invariant. -/
theorem witness_invariant : (StateInv before ∧ step before = .next afterStep) ∧
    (StateInv beforeFault ∧ step beforeFault = .next afterFault) ∧
    before.params.statements = .ok [.andB32 (n "d") (r "a") (r "b")] ∧ beforeFault.params = before.params :=
  ⟨⟨stateInv_before, witness_steps.1⟩, ⟨stateInv_beforeFault, witness_steps.2.1⟩, statements_before, rfl⟩

/-- For `RegistersKeepTheirValues`: a register that the one statement executed does not name. -/
theorem witness_keeps : before.params.statements = .ok [.andB32 (n "d") (r "a") (r "b")] ∧
    run 1 before = .next afterStep ∧
    ∀ i ∈ ([Instr.andB32 (n "d") (r "a") (r "b")].drop before.pc).take (afterStep.pc - before.pc), n "a" ∉ destNames i :=
  ⟨statements_before, witness_steps.2.2.2.2.1, by decide +kernel⟩

/-- For `RunDependsOnRegistersRead`: two states that differ in a register the program does not read. -/
theorem witness_depends : before.params.statements = .ok [.andB32 (n "d") (r "a") (r "b")] ∧
    ((before.writeReg .w16 (n "h") 1).params = before.params ∧ (before.writeReg .w16 (n "h") 1).pc = before.pc ∧
      (before.writeReg .w16 (n "h") 1).fault = before.fault) ∧
    (∀ i ∈ [Instr.andB32 (n "d") (r "a") (r "b")], ∀ x ∈ sourceNames i.reads, x ∈ [n "a", n "b"]) ∧
    (∀ x ∈ [n "a", n "b"], before.regs.get x = (before.writeReg .w16 (n "h") 1).regs.get x) ∧
    run 1 before = .next afterStep ∧ before ≠ before.writeReg .w16 (n "h") 1 :=
  ⟨statements_before, ⟨rfl, rfl, rfl⟩, by decide +kernel, by decide +kernel, witness_steps.2.2.2.2.1, by decide +kernel⟩

/-- For `LoadedStatementRuns`, `DecodeEncode`, `DecodeEncodeBytes` and `TranscribeEncodeProgram`: well-formed terms of every
format, with literals at the edges. -/
theorem witness_well_formed : ∀ i ∈ [Instr.xorPred (n "p") (r "q") (r "p"), .andB64 (n "w") (.imm 0xFFFFFFFFFFFFFFFF) (.imm 0),
    .cnotB16 (n "h") (.imm 0xFFFF), .lop3B32 (n "d") (r "a") (.imm 0) (r "c") 255,
    .lop3AndB32 .sink (n "p") (r "a") (r "b") (r "c") 0 (r "p"), .lop3OrB32 (.reg (n "d")) (n "q") (r "a") (r "b") (r "c") 255 (r "q"),
    .shfRWrapB32 (n "d") (r "d") (r "b") (.imm 0xFFFFFFFF), .shlB16 (n "h") (r "g") (.imm 0), .shrS64 (n "w") (r "w") (r "a")],
    i.WellFormed refParams := by decide +kernel

/-- For `CommentsSkipped` and `WhiteSpaceIgnored`. -/
theorem witness_layout : "and.b32 d, a, b; ".toList.getLast? ≠ some '/' ∧ '\n' ∉ " a / comment // here".toList ∧
    '/' ∉ "and.b32".toList ∧ " \t\r\n ".toList ≠ [] ∧ ∀ c ∈ " \t\r\n ".toList, isSpace c = true := by simp [isSpace]

/-- For `Literals`. -/
theorem witness_literals : ['1', 'F'] ≠ [] ∧ '1' ≠ 'x' := by decide +kernel

/-- For `LogicWellFormed`, `Lop3WellFormed` and `ShiftWellFormed`: a well-formed statement and one that is not. -/
theorem witness_formats :
    ((Instr.orB16 (n "h") (r "g") (.imm 0xFFFF)).WellFormed refParams ∧ ¬ (Instr.orB16 (n "h") (r "g") (.imm 0x10000)).WellFormed refParams) ∧
    ((Instr.notPred (n "p") (r "q")).WellFormed refParams ∧ ¬ (Instr.notPred (n "p") (.imm 0)).WellFormed refParams) ∧
    ((Instr.lop3B32 (n "d") (r "a") (r "b") (r "c") 255).WellFormed refParams ∧
      ¬ (Instr.lop3B32 (n "d") (r "a") (r "b") (r "c") 256).WellFormed refParams) ∧
    ((Instr.lop3OrB32 .sink (n "p") (r "a") (r "b") (r "c") 0 (r "q")).WellFormed refParams ∧
      ¬ (Instr.lop3OrB32 (.reg (n "p")) (n "p") (r "a") (r "b") (r "c") 0 (r "q")).WellFormed refParams) ∧
    ((Instr.shfLClampB32 (n "d") (r "a") (r "b") (.imm 0xFFFFFFFF)).WellFormed refParams ∧
      ¬ (Instr.shfLClampB32 (n "d") (r "a") (r "b") (.imm 0x100000000)).WellFormed refParams) ∧
    ((Instr.shrU64 (n "w") (r "w") (r "a")).WellFormed refParams ∧ ¬ (Instr.shrU64 (n "w") (r "w") (r "w")).WellFormed refParams) := by
  decide +kernel

/-- For `DefaultsAdmitEveryForm`: parameters at the threshold and just below it. -/
theorem witness_defaults : Allows refParams 8 2 70 ∧ ¬ Allows { refParams with smTarget := 69 } 8 2 70 ∧
    ¬ Allows { refParams with ptxVersion := ⟨8, 1⟩ } 8 2 70 := by
  refine ⟨⟨.inr ⟨rfl, Nat.le_refl 2⟩, Nat.le_refl 70⟩, fun h => absurd h.2 (by decide), fun h => ?_⟩
  rcases h.1 with h | h
  · exact absurd h (by decide)
  · exact absurd h.2 (by decide)

/-- For `Lop3Laws`: tables related by each of the three exchanges. -/
theorem witness_exchanges :
    (∀ k, k < 8 → (0xCA#8 : BitVec 8).getLsbD k = (0xAC#8 : BitVec 8).getLsbD (if k = 1 then 2 else if k = 2 then 1 else
      if k = 5 then 6 else if k = 6 then 5 else k)) ∧
    (∀ k, k < 8 → (0xE2#8 : BitVec 8).getLsbD k = (0xCA#8 : BitVec 8).getLsbD (if k = 2 then 4 else if k = 4 then 2 else
      if k = 3 then 5 else if k = 5 then 3 else k)) ∧
    (∀ k, k < 8 → (0xD8#8 : BitVec 8).getLsbD k = (0xCA#8 : BitVec 8).getLsbD (if k = 1 then 4 else if k = 4 then 1 else
      if k = 3 then 6 else if k = 6 then 3 else k)) := by decide +kernel

/-- For `FunnelInWords` and `ShfLaws`: the least and the greatest effective amount, and the last amount on which the modes
agree beside the first on which they differ. -/
theorem witness_funnel : 0 ≤ 32 ∧ 32 ≤ 32 ∧ (31#32).toNat < 32 ∧ 32 ≤ (32#32).toNat ∧
    clampAmount 32 31#32 = 31 ∧ wrapAmount 31#32 = 31 ∧ clampAmount 32 32#32 = 32 ∧ wrapAmount 32#32 = 0 := by
  decide +kernel

/-- For `ShfRotates` and `ShfExtractsField`: operands, and amounts on both sides of 32. -/
theorem witness_rotate : full.operand .w32 (r "a") = .ok 0xFFFFFFFF ∧ full.operand .w32 (r "c") = .ok 32 ∧
    full.operand .w32 (.imm 33) = .ok 33 ∧ full.operand .w32 (.imm 31) = .ok 31 ∧
    full.readReg .w32 (n "a") = some 0xFFFFFFFF ∧ full.readReg .w32 (n "b") = some 0 := by decide +kernel

/-- For `ShlLaws` and `ShrLaws`: amounts at the width, below it, with a sum at the width, and values of both signs. -/
theorem witness_shift_laws : Width.w16.bits ≤ (16#32).toNat ∧ (15#32).toNat < Width.w16.bits ∧
    (15#32).toNat + (1#32).toNat < 2 ^ 32 ∧ Width.w16.bits ≤ (15#32).toNat + (1#32).toNat ∧
    14 < min (15#32).toNat Width.w16.bits ∧ (0x7FFF#16).getLsbD (Width.w16.bits - 1) = false ∧
    (0x8000#16).getLsbD (Width.w16.bits - 1) = true ∧ 0 < Width.w16.bits - (15#32).toNat ∧
    Width.w16.bits - (15#32).toNat ≤ 1 ∧ 1 < Width.w16.bits := by decide +kernel

end Sys2Proof.Tests
end

section
/-! Proofs about the state: what `pc`, the fault mark, the parameters and the destinations hold after a step
(spec/10_state.md R41, R42, R45). -/

namespace Sys2Proof.Machine

/-! ## The result of a statement (R45) -/

/-- Settles O19: sources that read the same have one list of values, and `exec_congr` says that the destinations are
computed from that list alone. -/
theorem resultFromOperands : Obligations.ResultFromOperands := by
  intro i s₁ s₂ hread hagree
  have hvalues : operandValues s₁ i.reads = operandValues s₂ i.reads := operandValues_congr hagree
  have hunread : firstUnread s₁ i.reads = none := (firstUnread_eq_none s₁ i.reads).mpr hread
  obtain ⟨t₁, t₂, h₁, h₂, hget⟩ := exec_congr hvalues hunread
  exact ⟨t₁, t₂, h₁, h₂, fun r hr => hget r (.inl hr)⟩

/-! ## The statement counter (R41) -/

/-- A completed step leaves no fault mark and moves past the statement; a faulting one sets the mark and stays. -/
theorem step_pc_fault {s t : State} (h : step s = .next t) :
    (t.fault = none ∧ t.pc = s.pc + 1) ∨ (t.fault ≠ none ∧ t.pc = s.pc) := by
  obtain ⟨_, _, hfault, _, _, _, ⟨r, _, rfl⟩ | ⟨_, hpc, ⟨_, hkept, _⟩, _⟩⟩ := step_cases h
  · exact .inr ⟨by simp, raise_pc s r⟩
  · exact .inl ⟨hkept.trans hfault, hpc⟩

/-- Only a state whose `pc` is the index of a statement has a next state. -/
theorem step_pc_lt_length {s t : State} {prog : List Instr} (hprog : s.params.statements = .ok prog)
    (h : step s = .next t) : s.pc < prog.length := by
  obtain ⟨prog', i, _, hprog', hi, _⟩ := step_cases h
  obtain rfl : prog = prog' := Except.ok.inj (hprog.symm.trans hprog')
  exact (List.getElem?_eq_some_iff.mp hi).1

/-- Settles O25, by the two cases of a step, and because at the end of the program there is no statement to run. -/
theorem stepAdvances : Obligations.StepAdvances := by
  refine ⟨fun s t h => step_pc_fault h, fun s prog hprog hend => ⟨fun t h => ?_, fun hfault => ?_⟩⟩
  · exact absurd hend (step_pc_lt_length hprog h).ne
  · exact ⟨hfault, prog, hprog, hend⟩

/-! ## The parameters of the run (R42) -/

theorem step_params {s t : State} (h : step s = .next t) : t.params = s.params :=
  (step_pc_le h).2

/-- Settles O26, by induction on the steps of the run: each keeps the parameters it started with. -/
theorem parametersFixed : Obligations.ParametersFixed := by
  intro k s t hrun
  exact run_induction (P := fun u => u.params = s.params)
    (fun _ _ hu hstep => (step_params hstep).trans hu) k s t rfl hrun

end Sys2Proof.Machine
end

section
/-! Proofs about the layout of a program's text: what a comment and a line break do to its tokens
(spec/30_encoding.md R94). -/

namespace Sys2Proof

/-! ## Where the token reader stands after a text -/

theorem eq_slash_of_lexStart_slash {c : Char} (h : (lexStart c).2 = .slash) : c = '/' := by
  by_contra hc
  unfold lexStart at h
  rw [if_neg hc] at h
  split_ifs at h

/-- Only the character `/` makes the reader stand after one `/`. -/
theorem eq_slash_of_lexStep_slash {m : LexMode} {c : Char} (h : (lexStep m c).2 = .slash) : c = '/' := by
  cases m with
  | gap => exact eq_slash_of_lexStart_slash h
  | inWord cs =>
    rw [lexStep] at h
    split_ifs at h
    exact eq_slash_of_lexStart_slash h
  | slash =>
    rw [lexStep] at h
    split_ifs at h
    exact eq_slash_of_lexStart_slash h
  | comment =>
    rw [lexStep] at h
    split_ifs at h

/-- The reader stands after one `/` only where the text read ends in `/`. -/
theorem getLast?_of_lexRun_slash {m : LexMode} {text : List Char} (h : (lexRun m text).2 = .slash) (hne : text ≠ []) :
    text.getLast? = some '/' := by
  induction text generalizing m with
  | nil => exact absurd rfl hne
  | cons c cs ih =>
    cases cs with
    | nil => rw [eq_slash_of_lexStep_slash h]; rfl
    | cons d ds => rw [List.getLast?_cons_cons]; exact ih h (List.cons_ne_nil d ds)

theorem lexRun_gap_ne_slash {text : List Char} (h : text.getLast? ≠ some '/') : (lexRun .gap text).2 ≠ .slash := by
  intro hs
  cases text with
  | nil => cases hs
  | cons c cs => exact h (getLast?_of_lexRun_slash hs (List.cons_ne_nil c cs))

/-! ## Newlines and comments -/

/-- A newline completes what was being read, whatever it was, as the end of the text does. -/
theorem lexFrom_newline (m : LexMode) (rest : List Char) : lexFrom m ('\n' :: rest) = lexEnd m ++ lex rest := by
  cases m <;> rfl

/-- `//` completes what was being read, but where the first `/` is itself the second of a pair. -/
theorem lexFrom_slash_slash {m : LexMode} (hm : m ≠ .slash) (rest : List Char) :
    lexFrom m ('/' :: '/' :: rest) = lexEnd m ++ lexFrom .comment rest := by
  cases m with
  | slash => exact absurd rfl hm
  | gap => rfl
  | inWord cs => rfl
  | comment => rfl

/-- Nothing in a comment is a token, up to the newline that ends it. -/
theorem lexFrom_comment_append {comment : List Char} (h : '\n' ∉ comment) (rest : List Char) :
    lexFrom .comment (comment ++ rest) = lexFrom .comment rest := by
  induction comment with
  | nil => rfl
  | cons c cs ih =>
    obtain ⟨hc, hcs⟩ := List.ne_and_not_mem_of_not_mem_cons h
    simpa [lexFrom, lexStep, Ne.symm hc] using ih hcs

/-! ## The tokens of a text cut at a line break or at a comment -/

theorem lex_eq_lexRun (text : List Char) : lex text = (lexRun .gap text).1 ++ lexEnd (lexRun .gap text).2 := by
  simpa [lex, lexFrom] using lexFrom_append .gap text []

/-- No token goes across a line break. -/
theorem lex_append_newline (before after : List Char) : lex (before ++ '\n' :: after) = lex before ++ lex after := by
  rw [lex, lexFrom_append, lexFrom_newline, lex_eq_lexRun before, List.append_assoc]

theorem lex_append_comment {before : List Char} (h : before.getLast? ≠ some '/') (rest : List Char) :
    lex (before ++ '/' :: '/' :: rest) = lex before ++ lexFrom .comment rest := by
  rw [lex, lexFrom_append, lexFrom_slash_slash (lexRun_gap_ne_slash h), lex_eq_lexRun before, List.append_assoc]

/-! ## Comments and blank lines in a program (R94) -/

theorem transcribe_congr {p q : List Char} (h : lex p = lex q) : transcribe p = transcribe q := by
  rw [transcribe, transcribe, h]

/-- Settles O42: a text is transcribed from its tokens alone, and a comment and a blank line leave the tokens before and
after them as they are. -/
theorem commentsSkipped : Obligations.CommentsSkipped := by
  refine ⟨fun before comment after hb hc => transcribe_congr ?_, fun before comment hb hc => transcribe_congr ?_,
    fun before after => transcribe_congr ?_⟩
  · calc lex (before ++ '/' :: '/' :: (comment ++ '\n' :: after))
        = lex before ++ lexFrom .comment (comment ++ '\n' :: after) := lex_append_comment hb _
      _ = lex before ++ lexFrom .comment ('\n' :: after) := by rw [lexFrom_comment_append hc]
      _ = lex before ++ lex after := by rw [lexFrom_newline]; rfl
      _ = lex (before ++ '\n' :: after) := (lex_append_newline before after).symm
  · have hnone : lexFrom .comment comment = [] := by simpa [lexFrom, lexEnd] using lexFrom_comment_append hc []
    rw [lex_append_comment hb, hnone, List.append_nil]
  · have hblank : lex ('\n' :: after) = lex after := lexFrom_gap_newline after
    rw [lex_append_newline, lex_append_newline, hblank]

end Sys2Proof
end

section
/-! Proofs about `lop3`: its table as a function of its operands, and the predicate of `.BoolOp`
(spec/45_lop3.md R182, R186, R189, R190). -/

namespace Sys2Proof.Machine

/-! ## The predicate of `.BoolOp` (R186) -/

/-- `p` is written last, so it holds its value also where `d` names it. -/
theorem readReg_pair_p (s : State) (d : DstSink) (p : RegName) (r : BitVec 32) (v : BitVec 1) :
    ((s.writeDstSink .w32 d r).writeReg .pred p v).advance.readReg .pred p = some v := by
  simp

/-- The result of a table given as a number looks its bits up in that number (R181, R182). -/
theorem tableOf_lop3Table (l : Nat) (va vb vc : BitVec 32) : TableOf l va vb vc (lop3Table (BitVec.ofNat 8 l) va vb vc) :=
  fun i hi => by rw [lop3Table_getLsbD _ _ _ _ _ hi, lop3Bit_ofNat]

theorem toNat_ne_zero {r : BitVec 32} (h : r ≠ 0) : r.toNat ≠ 0 :=
  fun e => h (BitVec.eq_of_toNat_eq e)

/-- Settles O8: both forms write `p` last, and the values they write are given by `boolOr_nonZero` and
`boolAnd_nonZero`; the four rows are the cases of the result and of `q`. -/
theorem lop3BoolOpTable : Obligations.Lop3BoolOpTable := by
  intro s d p a b c immLut q va vb vc vq ha hb hc hq
  refine ⟨lop3Table (BitVec.ofNat 8 immLut) va vb vc, _, _, tableOf_lop3Table immLut va vb vc,
    lop3Bool_next ha hb hc boolOr d p immLut hq, lop3Bool_next ha hb hc boolAnd d p immLut hq, ?_⟩
  rw [readReg_pair_p, readReg_pair_p, boolOr_nonZero, boolAnd_nonZero]
  refine ⟨fun hr hv => ?_, fun hr hv => ?_, fun hr hv => ?_, fun hr hv => ?_⟩
  · simp [hr, hv]
  · simp [hr, hv]
  · simp [toNat_ne_zero hr, hv]
  · simp [toNat_ne_zero hr, hv]

/-! ## The function of a table as the or of its minterms (R182) -/

/-- A word is the result of a table when each of its bits is the one looked up. -/
theorem lop3Table_ext {l : BitVec 8} {va vb vc v : BitVec 32}
    (h : ∀ i, i < 32 → lop3Bit l (va.getLsbD i) (vb.getLsbD i) (vc.getLsbD i) = v.getLsbD i) :
    lop3Table l va vb vc = v :=
  BitVec.eq_of_getLsbD_eq fun i hi => (lop3Table_getLsbD l va vb vc i hi).trans (h i hi)

theorem getLsbD_foldr_or {w : Nat} (f : Nat → BitVec w) (i : Nat) (ks : List Nat) :
    (ks.foldr (fun k r => f k ||| r) 0#w).getLsbD i = ks.any fun k => (f k).getLsbD i := by
  induction ks with
  | nil => exact BitVec.getLsbD_zero
  | cons k ks ih => rw [List.foldr_cons, BitVec.getLsbD_or, ih, List.any_cons]

theorem getLsbD_ite_not (t : Bool) (v : BitVec 32) {i : Nat} (hi : i < 32) :
    (if t then v else ~~~v).getLsbD i = (v.getLsbD i == t) := by
  cases t <;> simp [hi]

/-- The bits 2, 1 and 0 of the number of a table entry are the inputs it stands for (R181). -/
theorem testBits_eq_iff_index (x y z : Bool) :
    ∀ k, k < 8 → ((x == k.testBit 2) && (y == k.testBit 1) && (z == k.testBit 0)) =
      decide (k = 4 * x.toNat + 2 * y.toNat + z.toNat) := by
  revert x y z; decide

/-- Minterm `k` is 1 exactly at the positions that look up entry `k`. -/
theorem getLsbD_minterm (va vb vc : BitVec 32) {i k : Nat} (hi : i < 32) (hk : k < 8) :
    ((if k.testBit 2 then va else ~~~va) &&& (if k.testBit 1 then vb else ~~~vb) &&&
      (if k.testBit 0 then vc else ~~~vc)).getLsbD i =
      decide (k = 4 * (va.getLsbD i).toNat + 2 * (vb.getLsbD i).toNat + (vc.getLsbD i).toNat) := by
  rw [BitVec.getLsbD_and, BitVec.getLsbD_and, getLsbD_ite_not _ _ hi, getLsbD_ite_not _ _ hi, getLsbD_ite_not _ _ hi,
    testBits_eq_iff_index _ _ _ k hk]

/-- Settles O49: a minterm is 1 at the positions that look up its entry, so at each position the or holds exactly the
entry looked up there. -/
theorem lop3Minterms : Obligations.Lop3Minterms := by
  intro l va vb vc
  refine ⟨fun i hi => lop3Table_getLsbD l va vb vc i hi, lop3Table_ext fun i hi => ?_⟩
  have hindex := tableIndex_lt (va.getLsbD i) (vb.getLsbD i) (vc.getLsbD i)
  rw [getLsbD_foldr_or, lop3Bit, Bool.eq_iff_iff, List.any_eq_true]
  simp only [List.mem_filter, List.mem_range]
  constructor
  · intro hbit
    exact ⟨_, ⟨hindex, hbit⟩, by rw [getLsbD_minterm va vb vc hi hindex, decide_eq_true rfl]⟩
  · rintro ⟨k, ⟨hk, hbit⟩, hone⟩
    rw [getLsbD_minterm va vb vc hi hk, decide_eq_true_eq] at hone
    exact hone ▸ hbit

/-! ## The laws of the table (R190) -/

theorem lop3Table_not (l : BitVec 8) (va vb vc : BitVec 32) :
    lop3Table (~~~l) va vb vc = ~~~(lop3Table l va vb vc) :=
  lop3Table_ext fun i hi => by
    rw [BitVec.getLsbD_not, lop3Table_getLsbD _ _ _ _ _ hi, lop3Bit, lop3Bit, BitVec.getLsbD_not]
    simp [hi, tableIndex_lt]

theorem lop3Table_and (l m : BitVec 8) (va vb vc : BitVec 32) :
    lop3Table (l &&& m) va vb vc = lop3Table l va vb vc &&& lop3Table m va vb vc :=
  lop3Table_ext fun i hi => by
    rw [BitVec.getLsbD_and, lop3Table_getLsbD _ _ _ _ _ hi, lop3Table_getLsbD _ _ _ _ _ hi]; exact BitVec.getLsbD_and

theorem lop3Table_or (l m : BitVec 8) (va vb vc : BitVec 32) :
    lop3Table (l ||| m) va vb vc = lop3Table l va vb vc ||| lop3Table m va vb vc :=
  lop3Table_ext fun i hi => by
    rw [BitVec.getLsbD_or, lop3Table_getLsbD _ _ _ _ _ hi, lop3Table_getLsbD _ _ _ _ _ hi]; exact BitVec.getLsbD_or

theorem lop3Table_xor (l m : BitVec 8) (va vb vc : BitVec 32) :
    lop3Table (l ^^^ m) va vb vc = lop3Table l va vb vc ^^^ lop3Table m va vb vc :=
  lop3Table_ext fun i hi => by
    rw [BitVec.getLsbD_xor, lop3Table_getLsbD _ _ _ _ _ hi, lop3Table_getLsbD _ _ _ _ _ hi]; exact BitVec.getLsbD_xor

/-- The bits of `0xF0`, `0xCC` and `0xAA` at position `k` are the bits 2, 1 and 0 of `k`. -/
theorem index_of_recipe : ∀ k, k < 8 →
    4 * ((0xF0 : BitVec 32).getLsbD k).toNat + 2 * ((0xCC : BitVec 32).getLsbD k).toNat +
      ((0xAA : BitVec 32).getLsbD k).toNat = k := by
  decide

/-- The source's recipe gives the table back. -/
theorem lop3Table_recipe (l : BitVec 8) : (lop3Table l 0xF0 0xCC 0xAA).setWidth 8 = l :=
  BitVec.eq_of_getLsbD_eq fun k hk => by
    rw [BitVec.getLsbD_setWidth, lop3Table_getLsbD _ _ _ _ _ (by omega), lop3Bit, index_of_recipe k hk, decide_eq_true hk,
      Bool.true_and]

/-- Operands that look up entry `π k` of `l` wherever others look up entry `k` of `m` give one result. -/
theorem lop3Table_reindex {l m : BitVec 8} {π : Nat → Nat} {va vb vc va' vb' vc' : BitVec 32}
    (h : ∀ k, k < 8 → m.getLsbD k = l.getLsbD (π k))
    (hπ : ∀ i, 4 * (va'.getLsbD i).toNat + 2 * (vb'.getLsbD i).toNat + (vc'.getLsbD i).toNat =
      π (4 * (va.getLsbD i).toNat + 2 * (vb.getLsbD i).toNat + (vc.getLsbD i).toNat)) :
    lop3Table l va' vb' vc' = lop3Table m va vb vc :=
  lop3Table_ext fun i hi => by
    rw [lop3Table_getLsbD _ _ _ _ _ hi, lop3Bit, lop3Bit, h _ (tableIndex_lt ..), hπ]

/-- The entries of a table after exchanging `b` and `c`: 1 with 2 and 5 with 6 (R190). -/
def exchangeBC (k : Nat) : Nat :=
  if k = 1 then 2 else if k = 2 then 1 else if k = 5 then 6 else if k = 6 then 5 else k

theorem index_exchangeBC : ∀ x y z : Bool,
    4 * x.toNat + 2 * z.toNat + y.toNat = exchangeBC (4 * x.toNat + 2 * y.toNat + z.toNat) := by
  decide

/-- The entries of a table after exchanging `a` and `b`: 2 with 4 and 3 with 5 (R190). -/
def exchangeAB (k : Nat) : Nat :=
  if k = 2 then 4 else if k = 4 then 2 else if k = 3 then 5 else if k = 5 then 3 else k

theorem index_exchangeAB : ∀ x y z : Bool,
    4 * y.toNat + 2 * x.toNat + z.toNat = exchangeAB (4 * x.toNat + 2 * y.toNat + z.toNat) := by
  decide

/-- The entries of a table after exchanging `a` and `c`: 1 with 4 and 3 with 6 (R190). -/
def exchangeAC (k : Nat) : Nat :=
  if k = 1 then 4 else if k = 4 then 1 else if k = 3 then 6 else if k = 6 then 3 else k

theorem index_exchangeAC : ∀ x y z : Bool,
    4 * z.toNat + 2 * y.toNat + x.toNat = exchangeAC (4 * x.toNat + 2 * y.toNat + z.toNat) := by
  decide

/-- Settles O52: each law of the results is one of the tables' entries, because every position looks up one entry. -/
theorem lop3Laws : Obligations.Lop3Laws := by
  intro va vb vc l m
  refine ⟨lop3Table_not l va vb vc, lop3Table_and l m va vb vc, lop3Table_or l m va vb vc, lop3Table_xor l m va vb vc,
    ?_, fun h => ?_, fun h => ?_, fun h => ?_⟩
  · rw [← BitVec.toNat_setWidth, lop3Table_recipe]
  · exact lop3Table_reindex (π := exchangeBC) h fun i => index_exchangeBC (va.getLsbD i) (vb.getLsbD i) (vc.getLsbD i)
  · exact lop3Table_reindex (π := exchangeAB) h fun i => index_exchangeAB (va.getLsbD i) (vb.getLsbD i) (vc.getLsbD i)
  · exact lop3Table_reindex (π := exchangeAC) h fun i => index_exchangeAC (va.getLsbD i) (vb.getLsbD i) (vc.getLsbD i)

/-! ## The source's recipe (R189) -/

/-- A bitwise function of three words, written with the operators of the table of R189. -/
inductive BitwiseExpr
  | zero
  | a
  | b
  | c
  | not (e : BitwiseExpr)
  | and (e f : BitwiseExpr)
  | or (e f : BitwiseExpr)
  | xor (e f : BitwiseExpr)

/-- The function at one width: 32 bits for the operands, 8 bits for the recipe. -/
def BitwiseExpr.eval {w : Nat} (va vb vc : BitVec w) : BitwiseExpr → BitVec w
  | .zero => 0
  | .a => va
  | .b => vb
  | .c => vc
  | .not e => ~~~(e.eval va vb vc)
  | .and e f => e.eval va vb vc &&& f.eval va vb vc
  | .or e f => e.eval va vb vc ||| f.eval va vb vc
  | .xor e f => e.eval va vb vc ^^^ f.eval va vb vc

theorem lop3Table_zero (va vb vc : BitVec 32) : lop3Table 0 va vb vc = 0 :=
  lop3Table_ext fun _ _ => BitVec.getLsbD_zero.trans BitVec.getLsbD_zero.symm

theorem lop3Bit_recipe : ∀ x y z : Bool,
    lop3Bit 0xF0 x y z = x ∧ lop3Bit 0xCC x y z = y ∧ lop3Bit 0xAA x y z = z := by
  decide

/-- The recipe of R189: `immLut = F(0xF0, 0xCC, 0xAA)` is the table of `F`. -/
theorem lop3Table_eval (e : BitwiseExpr) (va vb vc : BitVec 32) :
    lop3Table (e.eval 0xF0 0xCC 0xAA) va vb vc = e.eval va vb vc := by
  induction e with
  | zero => exact lop3Table_zero va vb vc
  | a => exact lop3Table_ext fun i _ => (lop3Bit_recipe _ _ _).1
  | b => exact lop3Table_ext fun i _ => (lop3Bit_recipe _ _ _).2.1
  | c => exact lop3Table_ext fun i _ => (lop3Bit_recipe _ _ _).2.2
  | not e ihe => rw [BitwiseExpr.eval, BitwiseExpr.eval, lop3Table_not, ihe]
  | and e f ihe ihf => rw [BitwiseExpr.eval, BitwiseExpr.eval, lop3Table_and, ihe, ihf]
  | or e f ihe ihf => rw [BitwiseExpr.eval, BitwiseExpr.eval, lop3Table_or, ihe, ihf]
  | xor e f ihe ihf => rw [BitwiseExpr.eval, BitwiseExpr.eval, lop3Table_xor, ihe, ihf]

/-- Settles O51: each row is the recipe `lop3Table_eval` at the row's function. -/
theorem lop3KnownTables : Obligations.Lop3KnownTables := by
  intro a b c
  exact ⟨
    lop3Table_eval .zero a b c,
    lop3Table_eval (.and (.and .a .b) .c) a b c,
    lop3Table_eval (.and (.and .a .b) (.not .c)) a b c,
    lop3Table_eval (.or (.or .a .b) .c) a b c,
    (lop3Table_eval (.not .zero) a b c).trans (show ~~~(0 : BitVec 32) = 0xFFFFFFFF by decide),
    lop3Table_eval (.xor (.or (.and .a .b) .c) .a) a b c,
    lop3Table_eval (.not (.and .a .b)) a b c,
    lop3Table_eval .a a b c,
    lop3Table_eval .b a b c,
    lop3Table_eval .c a b c,
    lop3Table_eval (.not .a) a b c,
    lop3Table_eval (.not .b) a b c,
    lop3Table_eval (.not .c) a b c,
    lop3Table_eval (.and .a .b) a b c,
    lop3Table_eval (.or .a .b) a b c,
    lop3Table_eval (.xor .a .b) a b c,
    lop3Table_eval (.and .a (.not .b)) a b c,
    lop3Table_eval (.xor (.xor .a .b) .c) a b c,
    lop3Table_eval (.or (.or (.and .a .b) (.and .a .c)) (.and .b .c)) a b c,
    lop3Table_eval (.or (.and .a .b) (.and (.not .a) .c)) a b c,
    lop3Table_eval (.or (.and .a .b) .c) a b c,
    lop3Table_eval (.and (.or .a .b) .c) a b c,
    lop3Table_eval (.not (.or (.or .a .b) .c)) a b c,
    lop3Table_eval (.and (.and (.not .a) (.not .b)) .c) a b c⟩

end Sys2Proof.Machine
end

section
/-! Proofs about `shf`: the laws of the funnel, the rotation of one word, and the extraction of a field from a pair
(spec/46_shf.md R206, R207, R210). -/

namespace Sys2Proof.Machine

/-! ## Between the two directions, and the edges (R206) -/

/-- Both directions cut the same 32 bits out of the pair, `n` bits below its top. -/
theorem funnelLeft_eq_funnelRight (va vb : BitVec 32) {n : Nat} (hn : n ≤ 32) :
    funnelLeft va vb n = funnelRight va vb (32 - n) :=
  BitVec.eq_of_getLsbD_eq fun i hi => by
    rw [funnelLeft_getLsbD va vb n i hn hi, funnelRight_getLsbD va vb (32 - n) i hi]
    by_cases h : i < n
    · rw [if_pos h, if_pos (by omega), Nat.sub_add_comm hn]
    · rw [if_neg h, if_neg (by omega)]
      congr 1
      omega

theorem funnelRight_zero (va vb : BitVec 32) : funnelRight va vb 0 = va :=
  BitVec.eq_of_getLsbD_eq fun i hi => by
    rw [funnelRight_getLsbD va vb 0 i hi, Nat.zero_add, if_pos hi]

theorem funnelRight_width (va vb : BitVec 32) : funnelRight va vb 32 = vb :=
  BitVec.eq_of_getLsbD_eq fun i hi => by
    rw [funnelRight_getLsbD va vb 32 i hi, if_neg (by omega), Nat.add_sub_cancel_left]

theorem funnelLeft_zero (va vb : BitVec 32) : funnelLeft va vb 0 = vb :=
  (funnelLeft_eq_funnelRight va vb (Nat.zero_le 32)).trans (funnelRight_width va vb)

theorem funnelLeft_width (va vb : BitVec 32) : funnelLeft va vb 32 = va :=
  (funnelLeft_eq_funnelRight va vb (Nat.le_refl 32)).trans (funnelRight_zero va vb)

/-! ## With a zero word (R206) -/

/-- Past bit 31 of `a` the zero high word fills with zeros, as the logical shift does. -/
theorem funnelRight_zero_high (va : BitVec 32) (n : Nat) : funnelRight va 0 n = va >>> n :=
  BitVec.eq_of_getLsbD_eq fun i hi => by
    rw [funnelRight_getLsbD va 0 n i hi, BitVec.getLsbD_ushiftRight]
    by_cases h : n + i < 32
    · rw [if_pos h]
    · rw [if_neg h, BitVec.getLsbD_of_ge va (n + i) (by omega)]
      exact BitVec.getLsbD_zero

/-- Below bit `n` the zero low word fills with zeros, as the shift left does. -/
theorem funnelLeft_zero_low (vb : BitVec 32) {n : Nat} (hn : n ≤ 32) : funnelLeft 0 vb n = vb <<< n :=
  BitVec.eq_of_getLsbD_eq fun i hi => by
    rw [funnelLeft_getLsbD 0 vb n i hn hi, BitVec.getLsbD_shiftLeft]
    by_cases h : i < n <;> simp [h, hi]

/-! ## The effective amounts of the two modes (R200) -/

theorem clampAmount_of_le {n : Nat} {c : BitVec 32} (h : c.toNat ≤ n) : clampAmount n c = c.toNat :=
  Nat.min_eq_left h

theorem clampAmount_of_ge {n : Nat} {c : BitVec 32} (h : n ≤ c.toNat) : clampAmount n c = n :=
  Nat.min_eq_right h

theorem wrapAmount_lt (c : BitVec 32) : wrapAmount c < 32 :=
  wrapAmount_eq_mod c ▸ Nat.mod_lt _ (by decide)

theorem clampAmount_eq_wrapAmount {c : BitVec 32} (h : c.toNat < 32) : clampAmount 32 c = wrapAmount c := by
  rw [clampAmount_of_le h.le, wrapAmount_eq_mod, Nat.mod_eq_of_lt h]

/-- From 32 on the clamped amount is 32, which no wrapped amount reaches. -/
theorem clampAmount_ne_wrapAmount {c : BitVec 32} (h : 32 ≤ c.toNat) : clampAmount 32 c ≠ wrapAmount c := by
  rw [clampAmount_of_ge h]
  exact (wrapAmount_lt c).ne'

/-- Settles O54: the left-hand laws follow from the right-hand ones, because `shf.l` by `n` is `shf.r` by `32 - n`. -/
theorem shfLaws : Obligations.ShfLaws := by
  intro va vb
  refine ⟨⟨funnelLeft_zero va vb, funnelLeft_width va vb, funnelRight_zero va vb, funnelRight_width va vb⟩,
    fun n hn => funnelLeft_eq_funnelRight va vb hn, fun n hn => ⟨funnelRight_zero_high va n, ?_⟩,
    fun n hn => funnelLeft_zero_low vb hn, fun c => ⟨clampAmount_eq_wrapAmount, clampAmount_ne_wrapAmount⟩⟩
  calc funnelLeft va 0 n
      = funnelRight va 0 (32 - n) := funnelLeft_eq_funnelRight va 0 hn
    _ = va >>> (32 - n) := funnelRight_zero_high va (32 - n)

/-! ## One word in both places (R207) -/

theorem funnelLeft_self (v : BitVec 32) {n : Nat} (hn : n < 32) : funnelLeft v v n = v.rotateLeft n :=
  BitVec.eq_of_getLsbD_eq fun i hi => by
    rw [funnelLeft_getLsbD v v n i hn.le hi, BitVec.getLsbD_rotateLeft_of_le hn]
    by_cases h : i < n
    · simp [h, Nat.sub_add_comm hn.le]
    · simp [h, hi]

theorem funnelRight_self (v : BitVec 32) {n : Nat} (hn : n < 32) : funnelRight v v n = v.rotateRight n :=
  BitVec.eq_of_getLsbD_eq fun i hi => by
    rw [funnelRight_getLsbD v v n i hi, BitVec.getLsbD_rotateRight_of_lt hn]
    by_cases h : n + i < 32
    · have hlow : i < 32 - n := by omega
      simp [h, hlow]
    · have hlow : ¬ i < 32 - n := by omega
      have hbit : n + i - 32 = i - (32 - n) := by omega
      simp [h, hlow, hi, hbit]

/-- A rotation by the whole width is none. -/
theorem rotateLeft_width (v : BitVec 32) : v.rotateLeft 32 = v := by
  rw [← BitVec.rotateLeft_mod_eq_rotateLeft, Nat.mod_self, ← funnelLeft_self v (by decide), funnelLeft_zero]

theorem rotateRight_width (v : BitVec 32) : v.rotateRight 32 = v := by
  rw [← BitVec.rotateRight_mod_eq_rotateRight, Nat.mod_self, ← funnelRight_self v (by decide), funnelRight_zero]

/-- A function of the clamped amount, from its values below 32 and at 32. -/
theorem apply_clampAmount {f g : Nat → BitVec 32} {v : BitVec 32} (hlt : ∀ n, n < 32 → f n = g n) (hf : f 32 = v)
    (hg : g 32 = v) (c : BitVec 32) : f (clampAmount 32 c) = if c.toNat ≤ 32 then g c.toNat else v := by
  rcases Nat.lt_trichotomy c.toNat 32 with h | h | h
  · rw [clampAmount_of_le h.le, if_pos h.le, hlt _ h]
  · rw [clampAmount_of_ge h.ge, if_pos h.le, h, hf, hg]
  · rw [clampAmount_of_ge h.le, if_neg (by omega), hf]

/-- A form of `shf` yields its funnel at its effective amount. -/
theorem yields_of_funnel {i : Instr} {s : State} {d : RegName} {a b c : Src} {va vb vc v : BitVec 32}
    {amount : BitVec 32 → Nat} {f : BitVec 32 → BitVec 32 → Nat → BitVec 32}
    (hexec : exec i s = funnel amount f d a b c s) (ha : s.operand .w32 a = .ok va) (hb : s.operand .w32 b = .ok vb)
    (hc : s.operand .w32 c = .ok vc) (hv : f va vb (amount vc) = v) : Yields i s .w32 d v :=
  yields_of_next (hexec.trans (hv ▸ funnel_next ha hb hc amount f))

/-- Settles O55: below 32 the funnel of one word is its rotation, and by 32 it gives the word back, which is where the
clamped amount stops. -/
theorem shfRotates : Obligations.ShfRotates := by
  intro s d a c v vc ha hc
  have hmod : vc.toNat % 32 < 32 := Nat.mod_lt _ (by decide)
  refine ⟨yields_of_funnel rfl ha ha hc ?_, yields_of_funnel rfl ha ha hc ?_, yields_of_funnel rfl ha ha hc ?_,
    yields_of_funnel rfl ha ha hc ?_⟩
  · rw [wrapAmount_eq_mod, funnelLeft_self v hmod]
  · rw [wrapAmount_eq_mod, funnelRight_self v hmod]
  · exact apply_clampAmount (fun _ => funnelLeft_self v) (funnelLeft_width v v) (rotateLeft_width v) vc
  · exact apply_clampAmount (fun _ => funnelRight_self v) (funnelRight_width v v) (rotateRight_width v) vc

/-! ## The bits of a pair of words (R210) -/

/-- Bit `i` of `shf.r` is bit `i + n` of the pair with `b` high. -/
theorem funnelRight_getLsbD_pair (va vb : BitVec 32) (n : Nat) {i : Nat} (hi : i < 32) :
    (funnelRight va vb n).getLsbD i = (vb ++ va).getLsbD (i + n) := by
  rw [funnelRight_getLsbD va vb n i hi, BitVec.getLsbD_append, Nat.add_comm n i]

/-- Settles O58: the destination is also the low word, which is read before it is written, so the result is the funnel
of the old pair. -/
theorem shfExtractsField : Obligations.ShfExtractsField := by
  intro s r0 r1 n v0 v1 vn h0 h1 hn
  refine ⟨funnelRight v0 v1 (clampAmount 32 vn),
    yields_of_funnel rfl (operand_reg_of_some h0) (operand_reg_of_some h1) hn rfl, fun hlt i hi => ?_, fun hge => ?_⟩
  · rw [clampAmount_of_le hlt.le, funnelRight_getLsbD_pair v0 v1 vn.toNat hi]
  · rw [clampAmount_of_ge hge, funnelRight_width]

end Sys2Proof.Machine
end

section
/-! Proofs about `shl`: the laws of its shifts (spec/47_shl.md R224). -/

namespace Sys2Proof.Machine

/-- The clamp of R220 does not show in the result: past the width a shift left leaves 0, as it does at the width. -/
theorem shlBits_eq_shiftLeft (w : Width) (v : BitVec w.bits) (s : BitVec 32) : shlBits w v s = v <<< s.toNat := by
  rw [shlBits]
  rcases Nat.le_total s.toNat w.bits with h | h
  · rw [clampAmount_of_le h]
  · rw [clampAmount_of_ge h, BitVec.shiftLeft_eq_zero (Nat.le_refl _), BitVec.shiftLeft_eq_zero h]

/-- Two shifts are one by the sum of the amounts as numbers, which may be more than 32 bits hold. -/
theorem shlBits_shlBits (w : Width) (v : BitVec w.bits) (s t : BitVec 32) :
    shlBits w (shlBits w v s) t = v <<< (s.toNat + t.toNat) := by
  rw [shlBits_eq_shiftLeft, shlBits_eq_shiftLeft, BitVec.shiftLeft_add]

/-- Settles O59: without the clamp each law is one of the shift by a number; the 32-bit sum of the amounts is their sum
where it does not overflow. -/
theorem shlLaws : Obligations.ShlLaws := by
  intro w v s t
  refine ⟨?zero, fun hs => ?width, fun hsum => ?add, fun hsum => ?addWidth, fun hs => ?value, fun i hi => ?lowBits⟩
  case zero => exact (shlBits_eq_shiftLeft w v 0).trans (BitVec.shiftLeft_zero v)
  case width => exact (shlBits_eq_shiftLeft w v s).trans (BitVec.shiftLeft_eq_zero hs)
  case add => rw [shlBits_shlBits, shlBits_eq_shiftLeft, BitVec.toNat_add_of_lt hsum]
  case addWidth => exact (shlBits_shlBits w v s t).trans (BitVec.shiftLeft_eq_zero hsum)
  case value => rw [shlBits_toNat, Nat.min_eq_left hs.le]
  case lowBits =>
    have hlow : i < s.toNat := hi.trans_le (Nat.min_le_left _ _)
    rw [shlBits_eq_shiftLeft, BitVec.getLsbD_shiftLeft, decide_eq_true hlow, Bool.not_true, Bool.and_false,
      Bool.false_and]

end Sys2Proof.Machine
end

section
/-! Proofs about `shr`: the laws of its two fills (spec/48_shr.md R241). -/

namespace Sys2Proof.Machine

/-! ## The clamp does not show (R230, R231) -/

/-- Past the width a shift right with zero fill leaves 0, as it does at the width. -/
theorem shrZeroBits_eq_ushiftRight (w : Width) (v : BitVec w.bits) (s : BitVec 32) :
    shrZeroBits w v s = v >>> s.toNat := by
  rw [shrZeroBits]
  rcases Nat.le_total s.toNat w.bits with h | h
  · rw [clampAmount_of_le h]
  · rw [clampAmount_of_ge h, BitVec.ushiftRight_eq_zero (Nat.le_refl _), BitVec.ushiftRight_eq_zero h]

/-- From the width on nothing of the value is left but its sign. -/
theorem sshiftRight_of_width_le {n k : Nat} (v : BitVec n) (h : n ≤ k) :
    v.sshiftRight k = if v.msb then BitVec.allOnes n else 0 := by
  cases hsign : v.msb with
  | false => rw [BitVec.sshiftRight_eq_of_msb_false hsign, BitVec.ushiftRight_eq_zero h]; rfl
  | true => rw [BitVec.sshiftRight_eq_of_msb_true hsign, BitVec.ushiftRight_eq_zero h, BitVec.not_zero]; rfl

/-- Past the width a shift right with sign fill leaves copies of the sign, as it does at the width. -/
theorem shrSignBits_eq_sshiftRight (w : Width) (v : BitVec w.bits) (s : BitVec 32) :
    shrSignBits w v s = v.sshiftRight s.toNat := by
  rw [shrSignBits]
  rcases Nat.le_total s.toNat w.bits with h | h
  · rw [clampAmount_of_le h]
  · rw [clampAmount_of_ge h, sshiftRight_of_width_le v (Nat.le_refl _), sshiftRight_of_width_le v h]

/-! ## Two shifts and one -/

/-- Two zero fills are one by the sum of the amounts as numbers, which may be more than 32 bits hold. -/
theorem shrZeroBits_shrZeroBits (w : Width) (v : BitVec w.bits) (s t : BitVec 32) :
    shrZeroBits w (shrZeroBits w v s) t = v >>> (s.toNat + t.toNat) := by
  rw [shrZeroBits_eq_ushiftRight, shrZeroBits_eq_ushiftRight, BitVec.shiftRight_add]

/-! ## As numbers -/

theorem shrZeroBits_toNat_eq_div (w : Width) (v : BitVec w.bits) (s : BitVec 32) :
    (shrZeroBits w v s).toNat = v.toNat / 2 ^ s.toNat := by
  rw [shrZeroBits_eq_ushiftRight, BitVec.toNat_ushiftRight, Nat.shiftRight_eq_div_pow]

theorem shrSignBits_toInt_eq_fdiv (w : Width) (v : BitVec w.bits) (s : BitVec 32) :
    (shrSignBits w v s).toInt = Int.fdiv v.toInt (2 ^ s.toNat) := by
  rw [shrSignBits_eq_sshiftRight, BitVec.toInt_sshiftRight, Int.shiftRight_eq_div_pow,
    Int.fdiv_eq_ediv_of_nonneg _ (by positivity), Nat.cast_pow, Nat.cast_ofNat]

/-! ## Bit by bit: the bits that stay, and the bits that enter -/

section bits
variable (w : Width) (v : BitVec w.bits) (s : BitVec 32) {i : Nat}

theorem shrZeroBits_getLsbD : (shrZeroBits w v s).getLsbD i = v.getLsbD (s.toNat + i) := by
  rw [shrZeroBits_eq_ushiftRight, BitVec.getLsbD_ushiftRight]

theorem shrSignBits_getLsbD_of_lt (hi : s.toNat + i < w.bits) :
    (shrSignBits w v s).getLsbD i = v.getLsbD (s.toNat + i) := by
  have hin : ¬ w.bits ≤ i := by omega
  rw [shrSignBits_eq_sshiftRight, BitVec.getLsbD_sshiftRight, if_pos hi, decide_eq_false hin, Bool.not_false,
    Bool.true_and]

theorem shrSignBits_getLsbD_of_ge (hfill : w.bits ≤ s.toNat + i) (hi : i < w.bits) :
    (shrSignBits w v s).getLsbD i = v.getLsbD (w.bits - 1) := by
  rw [shrSignBits_eq_sshiftRight, BitVec.getLsbD_sshiftRight, if_neg hfill.not_gt, decide_eq_false hi.not_ge,
    Bool.not_false, Bool.true_and, BitVec.msb_eq_getLsbD_last]

end bits

/-- Settles O60: without the clamp each law is one of the two shifts by a number; where the fills agree and differ is
read off bit by bit. -/
theorem shrLaws : Obligations.ShrLaws := by
  intro w v s t
  refine ⟨⟨?zeroFillZero, ?signFillZero⟩, fun hs => ?zeroFillWidth, fun hsum => ?zeroFillAdd,
    shrZeroBits_toNat_eq_div w v s, ?zeroFillLe, fun hs => ?signFillWidth, ?signKept, fun hsign => ?nonneg,
    shrSignBits_toInt_eq_fdiv w v s, fun hs => ⟨fun i hi => ?lowBits, fun i hfill hi hsign => ?topBits⟩⟩
  case zeroFillZero => exact (shrZeroBits_eq_ushiftRight w v 0).trans (BitVec.ushiftRight_zero v)
  case signFillZero => exact (shrSignBits_eq_sshiftRight w v 0).trans BitVec.sshiftRight_zero
  case zeroFillWidth => exact (shrZeroBits_eq_ushiftRight w v s).trans (BitVec.ushiftRight_eq_zero hs)
  case zeroFillAdd => rw [shrZeroBits_shrZeroBits, shrZeroBits_eq_ushiftRight, BitVec.toNat_add_of_lt hsum]
  case zeroFillLe => exact (shrZeroBits_toNat_eq_div w v s).trans_le (Nat.div_le_self _ _)
  case signFillWidth => rw [shrSignBits_eq_sshiftRight, sshiftRight_of_width_le v hs, BitVec.msb_eq_getLsbD_last]
  case signKept =>
    rw [shrSignBits_eq_sshiftRight, ← BitVec.msb_eq_getLsbD_last, BitVec.msb_sshiftRight, BitVec.msb_eq_getLsbD_last]
  case nonneg =>
    have hmsb : v.msb = false := v.msb_eq_getLsbD_last.trans hsign
    rw [shrSignBits_eq_sshiftRight, shrZeroBits_eq_ushiftRight, BitVec.sshiftRight_eq_of_msb_false hmsb]
  case lowBits =>
    have hin : s.toNat + i < w.bits := by omega
    rw [shrZeroBits_getLsbD, shrSignBits_getLsbD_of_lt w v s hin]
  case topBits =>
    have hout : w.bits ≤ s.toNat + i := by omega
    rw [shrZeroBits_getLsbD, shrSignBits_getLsbD_of_ge w v s hout hi]
    exact ⟨BitVec.getLsbD_of_ge v _ hout, hsign⟩

end Sys2Proof.Machine
end

section
/-! Proofs about the launch: the registers of `Launch` hold its values (spec/70_reset_and_hazards.md R280). -/

namespace Sys2Proof.Machine

/-- Among distinct names no later value shadows one of the list. -/
theorem ofList_get_of_mem {r : RegName} {v : Value} : ∀ {vs : List (RegName × Value)}, (vs.map Prod.fst).Nodup →
    (r, v) ∈ vs → (RegFile.ofList vs).get r = some v
  | (q, u) :: rest, hnodup, hmem => by
    obtain ⟨hq, hrest⟩ := List.nodup_cons.mp hnodup
    rw [RegFile.ofList]
    rcases List.mem_cons.mp hmem with hhead | htail
    · obtain ⟨rfl, rfl⟩ := Prod.mk.inj hhead
      exact get_set_same _ r v
    · have hne : r ≠ q := fun h => hq (List.mem_map.mpr ⟨(r, v), htail, h⟩)
      rw [get_set_of_ne _ _ hne]
      exact ofList_get_of_mem hrest htail

/-- Settles O29: the register map of the launch holds exactly the values of the list; the other fields are as
`State.launch` sets them. -/
theorem launchState : Obligations.LaunchState := by
  intro p values hnodup
  exact ⟨fun _ _ => ofList_get_of_mem hnodup, fun _ => ofList_get_eq_none, rfl, rfl, rfl⟩

end Sys2Proof.Machine
end

section
/-! Proofs about the text: a canonical text is read back, statement by statement and byte by byte, and white space and the
digits of literals are read as R87 and R93 say (spec/30_encoding.md sections 3 and 4). -/

namespace Sys2Proof

open Sys2Proof.Machine

/-! ## The canonical text of a term (R93) -/

/-- Every form's mnemonic names a format that builds the form's terms. -/
theorem spelling_statement (i : Instr) : Laws.Spelling.Statement i := by
  cases i with
  | andPred d a b => exact Laws.Spelling.andPred d a b
  | andB16 d a b => exact Laws.Spelling.andB16 d a b
  | andB32 d a b => exact Laws.Spelling.andB32 d a b
  | andB64 d a b => exact Laws.Spelling.andB64 d a b
  | orPred d a b => exact Laws.Spelling.orPred d a b
  | orB16 d a b => exact Laws.Spelling.orB16 d a b
  | orB32 d a b => exact Laws.Spelling.orB32 d a b
  | orB64 d a b => exact Laws.Spelling.orB64 d a b
  | xorPred d a b => exact Laws.Spelling.xorPred d a b
  | xorB16 d a b => exact Laws.Spelling.xorB16 d a b
  | xorB32 d a b => exact Laws.Spelling.xorB32 d a b
  | xorB64 d a b => exact Laws.Spelling.xorB64 d a b
  | notPred d a => exact Laws.Spelling.notPred d a
  | notB16 d a => exact Laws.Spelling.notB16 d a
  | notB32 d a => exact Laws.Spelling.notB32 d a
  | notB64 d a => exact Laws.Spelling.notB64 d a
  | cnotB16 d a => exact Laws.Spelling.cnotB16 d a
  | cnotB32 d a => exact Laws.Spelling.cnotB32 d a
  | cnotB64 d a => exact Laws.Spelling.cnotB64 d a
  | lop3B32 d a b c l => exact Laws.Spelling.lop3B32 d a b c l
  | lop3OrB32 d p a b c l q => exact Laws.Spelling.lop3OrB32 d p a b c l q
  | lop3AndB32 d p a b c l q => exact Laws.Spelling.lop3AndB32 d p a b c l q
  | shfLClampB32 d a b c => exact Laws.Spelling.shfLClampB32 d a b c
  | shfLWrapB32 d a b c => exact Laws.Spelling.shfLWrapB32 d a b c
  | shfRClampB32 d a b c => exact Laws.Spelling.shfRClampB32 d a b c
  | shfRWrapB32 d a b c => exact Laws.Spelling.shfRWrapB32 d a b c
  | shlB16 d a b => exact Laws.Spelling.shlB16 d a b
  | shlB32 d a b => exact Laws.Spelling.shlB32 d a b
  | shlB64 d a b => exact Laws.Spelling.shlB64 d a b
  | shrB16 d a b => exact Laws.Spelling.shrB16 d a b
  | shrB32 d a b => exact Laws.Spelling.shrB32 d a b
  | shrB64 d a b => exact Laws.Spelling.shrB64 d a b
  | shrU16 d a b => exact Laws.Spelling.shrU16 d a b
  | shrU32 d a b => exact Laws.Spelling.shrU32 d a b
  | shrU64 d a b => exact Laws.Spelling.shrU64 d a b
  | shrS16 d a b => exact Laws.Spelling.shrS16 d a b
  | shrS32 d a b => exact Laws.Spelling.shrS32 d a b
  | shrS64 d a b => exact Laws.Spelling.shrS64 d a b

/-- Where a text transcribes, its parts do: the statements up to the last semicolon, and nothing after it. -/
theorem transcribe_eq_ok_iff (text : List Char) (prog : List Instr) :
    transcribe text = .ok prog ↔
      readStatements (splitSemi (lex text)).1 = .ok prog ∧ (splitSemi (lex text)).2 = [] := by
  unfold transcribe
  cases readStatements (splitSemi (lex text)).1 with
  | error e => simp
  | ok is => by_cases h : (splitSemi (lex text)).2 = [] <;> simp [h]

/-- A term's canonical text in front of a program's text adds the term in front of the program's terms. -/
theorem transcribe_encode_append {i : Instr} (hi : i.Spelled) {rest : List Char} {is : List Instr}
    (hrest : transcribe rest = .ok is) : transcribe (encode i ++ rest) = .ok (i :: is) := by
  obtain ⟨ts, hlex, hsemi, hread⟩ := encode_tokens (spelling_statement i) hi
  obtain ⟨his, hleft⟩ := (transcribe_eq_ok_iff rest is).mp hrest
  have hsplit : splitSemi (lex (encode i ++ rest)) = (ts :: (splitSemi (lex rest)).1, (splitSemi (lex rest)).2) := by
    rw [lex, hlex, splitSemi_append ts _ hsemi]; rfl
  rw [transcribe_eq_ok_iff, hsplit]
  exact ⟨by simp [readStatements, hread, his], hleft⟩

theorem transcribe_newline (rest : List Char) : transcribe ('\n' :: rest) = transcribe rest :=
  transcribe_congr (lexFrom_gap_newline rest)

theorem transcribe_encode {i : Instr} (hi : i.Spelled) : transcribe (encode i) = .ok [i] := by
  simpa using transcribe_encode_append hi (show transcribe [] = .ok [] from rfl)

theorem decode_of_transcribe {text : List Char} {i : Instr} (h : transcribe text = .ok [i]) : decode text = .ok i := by
  rw [decode, h]

/-- The round trip needs no parameters: the names of the registers are enough. -/
theorem decode_encode {i : Instr} (hi : i.Spelled) : decode (encode i) = .ok i :=
  decode_of_transcribe (transcribe_encode hi)

/-- Settles O37: the names of a well-formed term are spelled as R86 says, so its text is one statement that is read as
the term. -/
theorem decodeEncode : Obligations.DecodeEncode :=
  fun _ _ hi => decode_encode (spelled_of_wellFormed hi)

/-! ## Programs (R93) -/

theorem transcribe_encodeProgram {prog : List Instr} (h : ∀ i ∈ prog, i.Spelled) :
    transcribe (encodeProgram prog) = .ok prog := by
  induction prog with
  | nil => rfl
  | cons i is ih =>
    obtain ⟨hi, his⟩ := List.forall_mem_cons.mp h
    exact transcribe_encode_append hi ((transcribe_newline _).trans (ih his))

/-- Whether a term is well formed depends on the version, the target and the classes that the declarations give, and not on
the program text it stands in. -/
theorem wellFormed_congr (p q : Params) {i : Instr} (hversion : q.ptxVersion = p.ptxVersion)
    (htarget : q.smTarget = p.smTarget) (hdecl : ∀ r, q.decl.classOf r = p.decl.classOf r) :
    i.WellFormed q ↔ i.WellFormed p := by
  simp only [wellFormed_iff, Params.admits, SrcAt, RegAt, hversion, htarget, hdecl]

/-- Settles O39, by induction on the terms: each line is read as its term in front of the rest. -/
theorem transcribeEncodeProgram : Obligations.TranscribeEncodeProgram := by
  intro p prog h
  have htext : transcribe (encodeProgram prog) = .ok prog :=
    transcribe_encodeProgram fun i hi => spelled_of_wellFormed (h i hi)
  have hwf : ∀ i ∈ prog, i.WellFormed { p with program := encodeProgram prog } := fun i hi =>
    (wellFormed_congr p { p with program := encodeProgram prog } rfl rfl fun _ => rfl).mpr (h i hi)
  exact ⟨htext, (statements_eq_ok _ prog).mpr ⟨htext, hwf⟩⟩

/-! ## The canonical text as bytes (notes/assumptions/6.md) -/

/-- Every character of the text has a byte of its own. -/
def IsAscii (text : List Char) : Prop :=
  ∀ c ∈ text, c.toNat < 128

theorem isAscii_append {p q : List Char} (hp : IsAscii p) (hq : IsAscii q) : IsAscii (p ++ q) :=
  List.forall_mem_append.mpr ⟨hp, hq⟩

theorem isAscii_cons {c : Char} {p : List Char} (hc : c.toNat < 128) (hp : IsAscii p) : IsAscii (c :: p) :=
  List.forall_mem_cons.mpr ⟨hc, hp⟩

theorem toNat_lt_of_isWordChar {c : Char} (h : isWordChar c = true) : c.toNat < 128 := by
  simp only [isWordChar, isLetter, isDigit, Bool.or_eq_true, Bool.and_eq_true, decide_eq_true_eq] at h
  rcases h with ((((h | h) | rfl) | rfl) | rfl) | rfl
  · omega
  · omega
  all_goals decide

theorem isAscii_of_isWord {w : List Char} (h : IsWord w) : IsAscii w :=
  fun c hc => toNat_lt_of_isWordChar (h.2 c hc)

theorem isAscii_spellPair {d : DstSink} {p : RegName} (hd : ∀ r ∈ dstSinkNames d, isRegName r = true)
    (hp : isRegName p = true) : IsAscii (spellPair d p) := by
  have hp' : IsAscii ('|' :: p) := isAscii_cons (by decide) (isAscii_of_isWord (isWord_of_isRegName hp))
  cases d with
  | reg d => exact isAscii_append (isAscii_of_isWord (isWord_of_isRegName (hd d (by simp [dstSinkNames])))) hp'
  | sink => exact isAscii_cons (by decide) hp'

theorem isAscii_joinOperands {texts : List (List Char)} (h : ∀ t ∈ texts, IsAscii t) : IsAscii (joinOperands texts) := by
  induction texts with
  | nil => simp [joinOperands, IsAscii]
  | cons t texts ih =>
    obtain ⟨ht, hts⟩ := List.forall_mem_cons.mp h
    cases texts with
    | nil => exact ht
    | cons u us => exact isAscii_append ht (isAscii_cons (by decide) (isAscii_cons (by decide) (ih hts)))

/-- Every operand of a term is spelled in such characters. -/
theorem isAscii_operandTexts {i : Instr} (h : i.Spelled) : ∀ t ∈ i.operandTexts, IsAscii t := by
  obtain ⟨hw, hr⟩ := h
  have hreg : ∀ {r}, isRegName r = true → IsAscii r := fun h => isAscii_of_isWord (isWord_of_isRegName h)
  have hsrc : ∀ w {o : Src}, o.Spelled → IsAscii (spellSrc w o) := fun w _ h => isAscii_of_isWord (spellSrc_isWord w h)
  have hamount : ∀ {o : Src}, o.Spelled → IsAscii (spellAmount o) := fun h => isAscii_of_isWord (spellAmount_isWord h)
  have hlut : ∀ l, IsAscii (spellLut l) := fun l => isAscii_of_isWord (isWord_hex 2 l)
  unfold Instr.writes at hw
  unfold Instr.reads at hr
  unfold Instr.operandTexts
  cases hlay : i.layout with
  | f2 | f3 | f3Shift | fl | fs => simp_all
  | flb m d p a b c l q =>
    have hpair : IsAscii (spellPair d p) := by
      cases d <;> exact isAscii_spellPair (by simp_all [dstSinkNames]) (by simp_all)
    simp_all

theorem isAscii_encode {i : Instr} (h : i.Spelled) : IsAscii (encode i) :=
  isAscii_append (isAscii_of_isWord (mnemonic_isWord i).1)
    (isAscii_cons (by decide) (isAscii_append (isAscii_joinOperands (isAscii_operandTexts h)) (by simp [IsAscii])))

theorem charOfByte_ofNat {c : Char} (h : c.toNat < 128) : charOfByte (BitVec.ofNat 8 c.toNat) = c := by
  have hbyte : c.toNat % 2 ^ 8 = c.toNat := Nat.mod_eq_of_lt (by omega)
  rw [charOfByte, BitVec.toNat_ofNat, hbyte, Char.ofNat_toNat]

/-- The bytes of such a text stand for its characters. -/
theorem map_charOfByte {text : List Char} (h : IsAscii text) :
    (text.map fun c => BitVec.ofNat 8 c.toNat).map charOfByte = text := by
  rw [List.map_map]
  exact (List.map_congr_left fun c hc => charOfByte_ofNat (h c hc)).trans (List.map_id' text)

/-- Settles O38: the bytes of a canonical text stand for its characters, which are read as the term. -/
theorem decodeEncodeBytes : Obligations.DecodeEncodeBytes := by
  intro p i hi
  have hs : i.Spelled := spelled_of_wellFormed hi
  rw [decodeBytes, encodeBytes, map_charOfByte (isAscii_encode hs)]
  exact decode_encode hs

/-! ## Statements written out (R82, R92) -/

/-- Settles O40: each text is decoded as the term. -/
theorem decodeWords : Obligations.DecodeWords :=
  ⟨rfl, rfl, rfl, rfl, rfl, rfl, rfl, rfl, rfl, rfl⟩

end Sys2Proof

namespace Sys2Proof.Machine

/-! ## The opcode map (R92) -/

/-- Settles O41: the list is written out in the model, and `mnemonic_mem` looks up each form in it. -/
theorem opcodeMap : Obligations.OpcodeMap :=
  ⟨rfl, by decide, mnemonic_mem⟩

end Sys2Proof.Machine
end

section
/-! Proofs about white space between tokens (spec/30_encoding.md R93, notes/assumptions/9.md) and about the digits of a
literal (R87). -/

namespace Sys2Proof

/-! ## White space -/

theorem lexStart_space {c : Char} (h : isSpace c = true) : isWordChar c = false ∧ lexStart c = ([], .gap) := by
  have hc : ((c = ' ' ∨ c = '\t') ∨ c = '\n') ∨ c = '\r' := by simpa [isSpace] using h
  rcases hc with ((rfl | rfl) | rfl) | rfl <;> exact ⟨rfl, rfl⟩

/-- Outside a comment a white space character completes what was being read, as the end of the text does. -/
theorem lexFrom_space {m : LexMode} (hm : m ≠ .comment) {c : Char} (h : isSpace c = true) (rest : List Char) :
    lexFrom m (c :: rest) = lexEnd m ++ lex rest := by
  obtain ⟨hword, hstart⟩ := lexStart_space h
  have hslash : c ≠ '/' := by rintro rfl; cases h
  cases m with
  | comment => exact absurd rfl hm
  | gap => simp [lexFrom, lexStep, lexEnd, hstart, lex]
  | inWord cs => simp [lexFrom, lexStep, lexEnd, hword, hstart, lex]
  | slash => simp [lexFrom, lexStep, lexEnd, hslash, hstart, lex]

theorem lex_spaces_append {space : List Char} (h : ∀ c ∈ space, isSpace c = true) (rest : List Char) :
    lex (space ++ rest) = lex rest := by
  induction space with
  | nil => rfl
  | cons c cs ih =>
    obtain ⟨hc, hcs⟩ := List.forall_mem_cons.mp h
    exact (lexFrom_space (by simp) hc _).trans (ih hcs)

/-- A comment is entered only from one `/`. -/
theorem eq_slash_of_lexStep_comment {m : LexMode} {c : Char} (hm : m ≠ .comment) (h : (lexStep m c).2 = .comment) :
    c = '/' := by
  have hstart : (lexStart c).2 ≠ .comment := by unfold lexStart; split_ifs <;> simp
  cases m with
  | comment => exact absurd rfl hm
  | gap => exact absurd h hstart
  | inWord cs =>
    rw [lexStep] at h
    split_ifs at h
    exact absurd h hstart
  | slash =>
    rw [lexStep] at h
    split_ifs at h with hc
    · exact hc
    · exact absurd h hstart

/-- A text without `/` does not lead into a comment. -/
theorem lexRun_ne_comment {text : List Char} (h : '/' ∉ text) {m : LexMode} (hm : m ≠ .comment) :
    (lexRun m text).2 ≠ .comment := by
  induction text generalizing m with
  | nil => exact hm
  | cons c cs ih =>
    obtain ⟨hc, hcs⟩ := List.ne_and_not_mem_of_not_mem_cons h
    exact ih hcs fun e => hc (eq_slash_of_lexStep_comment hm e).symm

/-- White space outside comments ends a token, however much of it there is. -/
theorem lex_append_spaces {before space : List Char} (hb : '/' ∉ before) (hne : space ≠ [])
    (hs : ∀ c ∈ space, isSpace c = true) (after : List Char) :
    lex (before ++ (space ++ after)) = lex before ++ lex after := by
  obtain ⟨c, cs, rfl⟩ := List.exists_cons_of_ne_nil hne
  obtain ⟨hc, hcs⟩ := List.forall_mem_cons.mp hs
  rw [lex, lexFrom_append, List.cons_append, lexFrom_space (lexRun_ne_comment hb (by simp)) hc,
    lex_spaces_append hcs, lex_eq_lexRun before, List.append_assoc]

/-- Settles O43: the tokens before and after the white space are those of the texts before and after it, for any
amount and so for one space. -/
theorem whiteSpaceIgnored : Obligations.WhiteSpaceIgnored := by
  intro before space after hb hne hs
  refine transcribe_congr ?_
  calc lex (before ++ (space ++ after))
      = lex before ++ lex after := lex_append_spaces hb hne hs after
    _ = lex (before ++ ([' '] ++ after)) :=
        (lex_append_spaces hb (List.cons_ne_nil _ _) (by simp [isSpace]) after).symm

/-! ## Literals (R87) -/

/-- The digits that the library writes are read at their values. -/
theorem hexDigit_digitChar : ∀ k, k < 16 → hexDigit (Nat.digitChar k) = some k := by decide

theorem decDigit_digitChar : ∀ k, k < 10 → decDigit (Nat.digitChar k) = some k := by decide

theorem digitChar_ne_zero : ∀ k, k < 10 → 0 < k → Nat.digitChar k ≠ '0' := by decide

/-- A numeral of any base is read as its number, where each digit is read at its value. -/
theorem readDigits_toDigits {base : Nat} {digit : Char → Option Nat} (hb : 1 < base)
    (hdigit : ∀ k, k < base → digit (Nat.digitChar k) = some k) (v : Nat) :
    readDigits base digit 0 (Nat.toDigits base v) = some v := by
  induction v using Nat.strongRecOn with
  | ind v ih =>
    rcases Nat.lt_or_ge v base with h | h
    · simp [Nat.toDigits_of_lt_base h, readDigits, hdigit v h]
    · have hlast : v % base < base := Nat.mod_lt v (by omega)
      rw [Nat.toDigits_of_base_le hb h, readDigits_append, ih _ (Nat.div_lt_self (by omega) hb)]
      simp [readDigits, hdigit _ hlast, Nat.div_add_mod']

/-- A positive number's decimal numeral begins with a digit other than 0. -/
theorem toDigits_ten_head {v : Nat} (hv : 0 < v) : ∃ c ds, Nat.toDigits 10 v = c :: ds ∧ c ≠ '0' := by
  induction v using Nat.strongRecOn with
  | ind v ih =>
    rcases Nat.lt_or_ge v 10 with h | h
    · exact ⟨_, [], Nat.toDigits_of_lt_base h, digitChar_ne_zero v h hv⟩
    · obtain ⟨c, ds, hds, hc⟩ := ih (v / 10) (by omega) (by omega)
      exact ⟨c, ds ++ [(v % 10).digitChar], by rw [Nat.toDigits_of_base_le (by omega) h, hds]; rfl, hc⟩

theorem readNumeral_toDigits_ten (v : Nat) : readNumeral (Nat.toDigits 10 v) = some v := by
  rcases Nat.eq_zero_or_pos v with rfl | hv
  · rfl
  · obtain ⟨c, ds, hds, hc⟩ := toDigits_ten_head hv
    rw [← readDigits_toDigits (by decide) decDigit_digitChar v, hds, readNumeral_of_ne_zero ds hc]

theorem readNumeral_zero_x {ds : List Char} (h : ds ≠ []) :
    readNumeral ('0' :: 'x' :: ds) = readDigits 16 hexDigit 0 ds := by
  rw [readNumeral, if_neg (by simpa using h)]

theorem readDigits_leading_zeros (k : Nat) (ds : List Char) :
    readDigits 16 hexDigit 0 (List.replicate k '0' ++ ds) = readDigits 16 hexDigit 0 ds := by
  induction k with
  | zero => rfl
  | succ k ih => exact ih

theorem readNumeral_zero_cons {c : Char} (hc : c ≠ 'x') (rest : List Char) : readNumeral ('0' :: c :: rest) = none := by
  unfold readNumeral
  split <;> simp_all

/-- Settles O44: both numerals are read digit by digit onto the value of the digits before, where zeros add nothing. -/
theorem literals : Obligations.Literals := by
  refine ⟨fun v => ⟨readNumeral_toDigits_ten v, ?hex⟩, fun k digits hne => ?zeros,
    fun c rest hc => readNumeral_zero_cons hc rest, rfl⟩
  case hex =>
    rw [readNumeral_zero_x Nat.toDigits_ne_nil]
    exact readDigits_toDigits (by decide) hexDigit_digitChar v
  case zeros =>
    rw [readNumeral_zero_x (by simp [hne]), readNumeral_zero_x hne, readDigits_leading_zeros]

end Sys2Proof
end

section
/-! Proofs about the invariant of a run, the refusals of a step and the ways a run ends (spec/10_state.md R31 to R46,
spec/60_exceptions.md section 2, spec/70_reset_and_hazards.md sections 1 to 3). -/

namespace Sys2Proof.Machine

/-! ## Registers and operands of a state -/

theorem readReg_eq_none_of_get {s : State} {w : Width} {r : RegName} (h : s.regs.get r = none) :
    s.readReg w r = none := by
  simp [State.readReg, h]

theorem readReg_of_get {s : State} {w : Width} {r : RegName} {v : BitVec w.bits}
    (h : s.regs.get r = some (Value.ofBits w v)) : s.readReg w r = some v := by
  simp [State.readReg, h]

/-- Settles O14, by the two forms of an operand and what the register holds. -/
theorem operandValue : Obligations.OperandValue := by
  intro s w
  refine ⟨fun v hv => ⟨BitVec.ofNat w.bits v, operand_imm s w v, ?_⟩, fun r v hr => ?_, fun r hr => ?_⟩
  · rw [BitVec.toNat_ofNat, Nat.mod_eq_of_lt hv]
  · exact operand_reg_of_some (readReg_of_get hr)
  · exact operand_reg_of_none (readReg_eq_none_of_get hr)

/-- Settles O15, by the laws of the register map. -/
theorem registerWrite : Obligations.RegisterWrite :=
  fun s w r v => ⟨readReg_writeReg_same s w r v, fun _ hq => get_set_of_ne s.regs (Value.ofBits w v) hq,
    set_wf r (Value.ofBits w v)⟩

/-! ## The fault (R43, R251 to R253) -/

/-- The first source that holds no value is the one reported, where those before it can be read. -/
theorem firstUnread_append {s : State} {before after : List (Width × Src)} {w : Width} {r : RegName}
    (hbefore : ∀ x ∈ before, ∃ v, s.operand x.1 x.2 = .ok v) (hr : s.regs.get r = none) :
    firstUnread s (before ++ (w, .reg r) :: after) = some r := by
  induction before with
  | nil => simp [firstUnread, operand_reg_of_none (readReg_eq_none_of_get hr)]
  | cons x before ih =>
    obtain ⟨⟨v, hv⟩, hrest⟩ := List.forall_mem_cons.mp hbefore
    simp [firstUnread, hv, ih hrest]

theorem not_finished_of_fault {s : State} {f : Fault} (h : s.fault = some f) : ¬ Finished s := by
  rintro ⟨hnone, _⟩
  rw [h] at hnone
  cases hnone

/-- Settles O17: the statement raises the fault for the source that `firstUnread` reports. -/
theorem unwrittenReadFaults : Obligations.UnwrittenReadFaults := by
  intro i s before after w r hreads hbefore hr
  have hunread : firstUnread s i.reads = some r := hreads ▸ firstUnread_append hbefore hr
  exact ⟨exec_of_firstUnread_some hunread, step_of_fault rfl, not_finished_of_fault rfl⟩

/-- Settles O18: the first case of `exec_cases` needs a source that cannot be read. -/
theorem everyFormCompletes : Obligations.EveryFormCompletes := by
  intro i s hread
  rcases exec_cases i s with ⟨r, hr, _⟩ | ⟨_, t, hexec, hpc, honly, _, hdest⟩
  · rw [(firstUnread_eq_none s i.reads).mpr hread] at hr
    cases hr
  · exact ⟨t, hexec, hpc, honly, hdest⟩

/-- Settles O20: a step that answers a next state is one of the two cases of `step_cases`, of which one raises the mark. -/
theorem faultMark : Obligations.FaultMark := by
  refine ⟨fun _ _ => rfl, fun s t h => ?_, fun s f hf => ⟨step_of_fault hf, not_finished_of_fault hf⟩⟩
  obtain ⟨_, _, hfault, _, _, _, ⟨r, _, rfl⟩ | ⟨_, _, ⟨_, hkept, _⟩, _⟩⟩ := step_cases h
  · exact ⟨hfault, .inr ⟨r, raise_fault s r⟩⟩
  · exact ⟨hfault, .inl (hkept.trans hfault)⟩

/-! ## What a step refuses (R8, R99, R285) -/

theorem fetch_eq_illFormed {s : State} {e : IllFormed} (h : s.params.statements = .error e) :
    s.fetch = .error (.illFormed e) := by
  simp [State.fetch, h]

theorem step_of_fetch_error {s : State} {e : Refusal} (hf : s.fault = none) (h : s.fetch = .error e) :
    step s = .refused e := by
  simp [step, hf, h]

/-- Settles O21: `statements_eq_ok` is the first part, and without statements `fetch` answers the failing check. -/
theorem illFormedProgramRefused : Obligations.IllFormedProgramRefused :=
  ⟨statements_eq_ok, fun _ _ hf he => step_of_fetch_error hf (fetch_eq_illFormed he)⟩

/-- Settles O22: a form that is not available is not well formed, so its program has no statements to run. -/
theorem unavailableFormRefused : Obligations.UnavailableFormRefused := by
  intro s prog i hf htext hi hgate
  cases hst : s.params.statements with
  | error e => exact ⟨e, step_of_fetch_error hf (fetch_eq_illFormed hst)⟩
  | ok prog' =>
    obtain ⟨htext', hwf⟩ := (statements_eq_ok s.params prog').mp hst
    obtain rfl : prog = prog' := Except.ok.inj (htext.symm.trans htext')
    obtain ⟨hadmits, _⟩ := (wellFormed_iff s.params i).mp (hwf i hi)
    exact absurd ((admits_iff s.params i.gate.version i.gate.target).mp hadmits) hgate

theorem step_of_getElem? {s : State} {prog : List Instr} {i : Instr} (hf : s.fault = none)
    (hprog : s.params.statements = .ok prog) (hi : prog[s.pc]? = some i) : step s = exec i s :=
  step_of_fetch hf ((fetch_eq_ok s i).mpr ⟨prog, hprog, hi⟩)

/-- Settles O23: such a list of terms is the well-formed program whose statement at `pc` is fetched. -/
theorem stepRunsDecoded : Obligations.StepRunsDecoded :=
  fun s prog _ hf htext hwf hi => step_of_getElem? hf ((statements_eq_ok s.params prog).mpr ⟨htext, hwf⟩) hi

/-- No statement is refused: every form has a meaning. -/
theorem exec_ne_refused (i : Instr) (s : State) (e : Refusal) : exec i s ≠ .refused e := by
  rcases exec_cases i s with ⟨r, _, h⟩ | ⟨_, t, h, _⟩ <;> simp [h]

theorem fetch_eq_finished_iff (s : State) :
    s.fetch = .error .finished ↔ ∃ prog, s.params.statements = .ok prog ∧ s.pc = prog.length := by
  unfold State.fetch
  cases s.params.statements with
  | error e => simp
  | ok prog =>
    cases hi : prog[s.pc]? with
    | some i => simpa [hi] using (List.getElem?_eq_some_iff.mp hi).1.ne
    | none => by_cases hl : s.pc = prog.length <;> simp [hi, hl]

/-- Settles O24: of the refusals of a step only that of `fetch` at the end of the program is `finished`. -/
theorem finishedStops : Obligations.FinishedStops := by
  intro s
  rw [Finished, ← fetch_eq_finished_iff]
  constructor
  · rintro ⟨hf, hfetch⟩
    exact step_of_fetch_error hf hfetch
  · intro h
    unfold step at h
    split at h
    · cases h
    next hf =>
      split at h
      · exact absurd h (exec_ne_refused _ s _)
      next hfetch => exact ⟨hf, hfetch.trans (congrArg _ (Host.Outcome.refused.inj h))⟩

/-! ## The invariant (R31, R33, R41, R253) -/

theorem faultExplained_of_none {s : State} (h : s.fault = none) : FaultExplained s := by
  intro n r hf
  rw [h] at hf
  cases hf

/-- Settles O27: each part is a field of `State.reset`, and the empty program is at its end. -/
theorem resetState : Obligations.ResetState :=
  ⟨rfl, rfl, fun _ => rfl, rfl, rfl⟩

/-- Settles O28: no register holds a value, and the empty program is well formed. -/
theorem resetInv : Obligations.ResetInv := by
  refine ⟨reset_wf, fun r v h => ?_, ⟨[], rfl, Nat.le_refl 0⟩, faultExplained_of_none rfl⟩
  cases h

/-- Settles O30: the values of the launch fit, and so do those of the map made of them. -/
theorem launchInv : Obligations.LaunchInv :=
  fun _ prog values hprog hfits =>
    ⟨ofList_wf values, ofList_class hfits, ⟨prog, hprog, Nat.zero_le _⟩, faultExplained_of_none rfl⟩

/-- The statement at `pc` of a well-formed program is well formed. -/
theorem wellFormed_of_getElem? {p : Params} {prog : List Instr} {n : Nat} {i : Instr} (hprog : p.statements = .ok prog)
    (hi : prog[n]? = some i) : i.WellFormed p :=
  ((statements_eq_ok p prog).mp hprog).2 i (List.mem_of_getElem? hi)

/-- A well-formed statement's source register is declared at the class of its position. -/
theorem classOf_of_mem_reads {p : Params} {i : Instr} {w : Width} {r : RegName} (hi : i.WellFormed p)
    (h : (w, Src.reg r) ∈ i.reads) : p.decl.classOf r = some w := by
  obtain ⟨_, _, hreads, _⟩ := (wellFormed_iff p i).mp hi
  exact (regAt_of_srcAt (hreads _ h)).2

theorem classOf_of_mem_writes {p : Params} {i : Instr} {w : Width} {r : RegName} (hi : i.WellFormed p)
    (h : (w, r) ∈ i.writes) : p.decl.classOf r = some w := by
  obtain ⟨_, hwrites, _⟩ := (wellFormed_iff p i).mp hi
  exact (hwrites _ h).2

/-- Where every value has its register's class, a source is unread only because its register holds no value at all. -/
theorem get_eq_none_of_firstUnread {s : State} {i : Instr} {r : RegName} (ht : WellTyped s) (hi : i.WellFormed s.params)
    (h : firstUnread s i.reads = some r) : s.regs.get r = none ∧ ∃ w, (w, Src.reg r) ∈ i.reads := by
  obtain ⟨w, hmem, hread⟩ := mem_of_firstUnread h
  exact ⟨get_eq_none_of_readReg ht (classOf_of_mem_reads hi hmem) hread, w, hmem⟩

/-- A statement that completes keeps every value at its register's class: it writes only destinations, each at the class
of its position. -/
theorem wellTyped_of_writes {s t : State} {i : Instr} (ht : WellTyped s) (hi : i.WellFormed s.params)
    (honly : OnlyWrites s t (destNames i))
    (hdest : ∀ r ∈ destNames i, ∃ u, t.regs.get r = some u ∧ (u.width, r) ∈ i.writes) : WellTyped t := by
  obtain ⟨hparams, _, hframe⟩ := honly
  intro r v hv
  rw [hparams]
  by_cases hr : r ∈ destNames i
  · obtain ⟨u, hu, hmem⟩ := hdest r hr
    obtain rfl : u = v := Option.some.inj (hu.symm.trans hv)
    exact classOf_of_mem_writes hi hmem
  · exact ht r v (hframe r hr ▸ hv)

/-- Settles O31, by the two cases of a step: a fault changes only the mark, which names what `firstUnread` found, and a
completed statement leaves no mark and moves to the next index. -/
theorem stepKeepsInv : Obligations.StepKeepsInv := by
  rintro s t ⟨hregs, htyped, ⟨prog, hprog, hle⟩, _⟩ h
  obtain ⟨prog', i, hfault, hprog', hi, _, hcases⟩ := step_cases h
  obtain rfl : prog = prog' := Except.ok.inj (hprog.symm.trans hprog')
  have hwf : i.WellFormed s.params := wellFormed_of_getElem? hprog hi
  rcases hcases with ⟨r, hunread, rfl⟩ | ⟨_, hpc, honly, hregs', hdest⟩
  · obtain ⟨hget, w, hmem⟩ := get_eq_none_of_firstUnread htyped hwf hunread
    refine ⟨hregs, htyped, ⟨prog, hprog, hle⟩, fun n q hmark => ?_⟩
    obtain ⟨rfl, rfl⟩ : s.pc = n ∧ r = q := by simpa using hmark
    exact ⟨rfl, hget, prog, i, w, hprog, hi, hmem⟩
  · refine ⟨hregs' hregs, wellTyped_of_writes htyped hwf honly hdest, ⟨prog, honly.1 ▸ hprog, ?_⟩,
      faultExplained_of_none (honly.2.1.trans hfault)⟩
    rw [hpc]
    exact (List.getElem?_eq_some_iff.mp hi).1

/-! ## The end of a run (R285) -/

/-- A state over: no step is possible, and exactly one of FINISHED and FAULTED holds. -/
def Over (t : State) : Prop :=
  (∀ u, step t ≠ .next u) ∧ ((Finished t ∧ ¬ Faulted t) ∨ (Faulted t ∧ ¬ Finished t))

theorem over_of_fault {t : State} (h : t.fault ≠ none) : Over t := by
  obtain ⟨f, hf⟩ := Option.ne_none_iff_exists'.mp h
  exact ⟨fun u => by simp [step_of_fault hf], .inr ⟨h, not_finished_of_fault hf⟩⟩

theorem over_of_finished {t : State} (h : Finished t) : Over t :=
  ⟨fun u => by simp [(finishedStops t).mp h], .inl ⟨h, fun hf => hf h.1⟩⟩

/-- Inside the program and without a fault mark there is a step. -/
theorem exists_step {s : State} {prog : List Instr} (hf : s.fault = none) (hprog : s.params.statements = .ok prog)
    (hlt : s.pc < prog.length) : ∃ t, step s = .next t := by
  rw [step_of_getElem? hf hprog (List.getElem?_eq_getElem hlt)]
  rcases exec_cases prog[s.pc] s with ⟨r, _, h⟩ | ⟨_, t, h, _⟩
  · exact ⟨_, h⟩
  · exact ⟨t, h⟩

/-- From `n` statements before the end a run is over after at most `n` steps. -/
theorem exists_over {prog : List Instr} (n : Nat) : ∀ s : State, s.params.statements = .ok prog →
    s.pc + n = prog.length → ∃ k t, k ≤ n ∧ run k s = .next t ∧ Over t := by
  induction n with
  | zero =>
    intro s hprog hend
    by_cases hf : s.fault = none
    · exact ⟨0, s, Nat.le_refl 0, rfl, over_of_finished ⟨hf, prog, hprog, hend⟩⟩
    · exact ⟨0, s, Nat.le_refl 0, rfl, over_of_fault hf⟩
  | succ n ih =>
    intro s hprog hend
    by_cases hf : s.fault = none
    · obtain ⟨u, hu⟩ := exists_step hf hprog (by omega)
      rcases step_pc_fault hu with ⟨_, hpc⟩ | ⟨hfault, _⟩
      · obtain ⟨k, t, hk, hrun, hover⟩ := ih u (step_params hu ▸ hprog) (by omega)
        exact ⟨k + 1, t, by omega, (run_succ k s t).mpr ⟨u, hu, hrun⟩, hover⟩
      · exact ⟨1, u, by omega, (run_succ 0 s u).mpr ⟨u, hu, rfl⟩, over_of_fault hfault⟩
    · exact ⟨0, s, Nat.zero_le _, rfl, over_of_fault hf⟩

/-- Settles O32, by induction on the statements left: a step faults, which ends the run, or leaves one statement less. -/
theorem everyRunEnds : Obligations.EveryRunEnds := by
  rintro s prog ⟨_, _, ⟨prog', hprog', hle⟩, _⟩ hprog
  obtain rfl : prog = prog' := Except.ok.inj (hprog.symm.trans hprog')
  exact exists_over (prog.length - s.pc) s hprog (by omega)

end Sys2Proof.Machine
end

section
/-! Proofs about runs: which runs finish, which registers they leave alone and which they depend on, and the run of one
loaded statement (spec/70_reset_and_hazards.md sections 2 to 4, spec/10_state.md R45). -/

namespace Sys2Proof.Machine

/-! ## Assignment before use (R282) -/

/-- The names are those of the registers that hold a value. -/
def Holds (s : State) (known : List RegName) : Prop :=
  ∀ r, r ∈ known ↔ ∃ v, s.regs.get r = some v

theorem holds_launch (p : Params) (values : List (RegName × Value)) :
    Holds (State.launch p values) (values.map Prod.fst) :=
  fun _ => mem_keys_iff

/-- A statement that completes adds its destinations to the registers that hold a value. -/
theorem holds_of_writes {s t : State} {i : Instr} {known : List RegName} (hknown : Holds s known)
    (honly : OnlyWrites s t (destNames i))
    (hdest : ∀ r ∈ destNames i, ∃ u, t.regs.get r = some u ∧ (u.width, r) ∈ i.writes) :
    Holds t (destNames i ++ known) := by
  intro r
  rw [List.mem_append]
  by_cases hr : r ∈ destNames i
  · obtain ⟨u, hu, _⟩ := hdest r hr
    exact ⟨fun _ => ⟨u, hu⟩, fun _ => .inl hr⟩
  · rw [honly.2.2 r hr, ← hknown r, or_iff_right hr]

/-- The sources of a well-formed statement can all be read exactly where each of its registers holds a value. -/
theorem firstUnread_eq_none_iff {s : State} {i : Instr} {known : List RegName} (htyped : WellTyped s)
    (hi : i.WellFormed s.params) (hknown : Holds s known) :
    firstUnread s i.reads = none ↔ ∀ r ∈ sourceNames i.reads, r ∈ known := by
  constructor
  · intro hnone r hr
    obtain ⟨w, hmem⟩ := mem_sourceNames.mp hr
    obtain ⟨v, hv⟩ := (firstUnread_eq_none s i.reads).mp hnone _ hmem
    by_contra hr'
    have hget : s.regs.get r = none := by
      cases hg : s.regs.get r with
      | none => rfl
      | some u => exact absurd ((hknown r).mpr ⟨u, hg⟩) hr'
    rw [operand_reg_of_none (readReg_eq_none_of_get hget)] at hv
    cases hv
  · intro hall
    cases hu : firstUnread s i.reads with
    | none => rfl
    | some r =>
      obtain ⟨hget, hmem⟩ := get_eq_none_of_firstUnread htyped hi hu
      obtain ⟨v, hv⟩ := (hknown r).mp (hall r (mem_sourceNames.mpr hmem))
      rw [hget] at hv
      cases hv

/-- A faulted state goes nowhere, and so never finishes. -/
theorem eq_of_run_of_fault {s t : State} (hf : s.fault ≠ none) : ∀ {k : Nat}, run k s = .next t → t = s
  | 0, h => (Host.Outcome.next.inj h).symm
  | k + 1, h => by
    obtain ⟨u, hu, _⟩ := (run_succ k s t).mp h
    exact absurd hu ((over_of_fault hf).1 u)

theorem not_finishes_of_fault {s : State} (hf : s.fault ≠ none) (k : Nat) :
    ¬ ∃ t, run k s = .next t ∧ Finished t := by
  rintro ⟨t, hrun, hfin⟩
  obtain rfl := eq_of_run_of_fault hf hrun
  exact hf hfin.1

/-- A run of `k + 1` steps finishes where the run of `k` steps after the first does. -/
theorem finishes_succ_iff {s u : State} (h : step s = .next u) (k : Nat) :
    (∃ t, run (k + 1) s = .next t ∧ Finished t) ↔ ∃ t, run k u = .next t ∧ Finished t := by
  simp only [run, h]

/-- From any state of a run that has not faulted: it finishes exactly where the statements left assign before use, given
the registers that hold a value. -/
theorem finishes_iff {prog : List Instr} (rest : List Instr) : ∀ (s : State) (known : List RegName), StateInv s →
    s.fault = none → s.params.statements = .ok prog → prog.drop s.pc = rest → Holds s known →
    ((∃ t, run rest.length s = .next t ∧ Finished t) ↔ assignedBeforeUse known rest = true) := by
  induction rest with
  | nil =>
    rintro s known ⟨_, _, ⟨prog', hprog', hle⟩, _⟩ hfault hprog hrest _
    obtain rfl : prog = prog' := Except.ok.inj (hprog.symm.trans hprog')
    have hend : s.pc = prog.length := Nat.le_antisymm hle (List.drop_eq_nil_iff.mp hrest)
    simp only [assignedBeforeUse, iff_true]
    exact ⟨s, rfl, hfault, prog, hprog, hend⟩
  | cons i rest ih =>
    intro s known hinv hfault hprog hrest hknown
    have hi : prog[s.pc]? = some i := by rw [← List.head?_drop, hrest]; rfl
    have hwf : i.WellFormed s.params := wellFormed_of_getElem? hprog hi
    obtain ⟨u, hu⟩ := exists_step hfault hprog (List.getElem?_eq_some_iff.mp hi).1
    obtain ⟨prog', i', _, hprog', hi', _, hcases⟩ := step_cases hu
    obtain rfl : prog = prog' := Except.ok.inj (hprog.symm.trans hprog')
    obtain rfl : i = i' := Option.some.inj (hi.symm.trans hi')
    have hsources := firstUnread_eq_none_iff hinv.2.1 hwf hknown
    rw [List.length_cons, finishes_succ_iff hu, assignedBeforeUse, Bool.and_eq_true, List.all_eq_true]
    simp only [decide_eq_true_eq]
    rw [← hsources]
    rcases hcases with ⟨r, hunread, rfl⟩ | ⟨hnone, hpc, honly, _, hdest⟩
    · refine iff_of_false (not_finishes_of_fault (by simp) _) fun h => ?_
      rw [hunread] at h
      cases h.1
    · rw [and_iff_right hnone]
      refine ih u _ (stepKeepsInv s u hinv hu) (honly.2.1.trans hfault) (honly.1 ▸ hprog) ?_
        (holds_of_writes hknown honly hdest)
      rw [hpc, ← List.drop_drop, hrest]
      rfl

/-- Settles O33: `finishes_iff` at the launch, where the registers of the launch are those that hold a value. -/
theorem finishesIffAssignedBeforeUse : Obligations.FinishesIffAssignedBeforeUse :=
  fun p prog values hprog hfits =>
    finishes_iff prog (State.launch p values) _ (launchInv p prog values hprog hfits) rfl hprog rfl
      (holds_launch p values)

/-! ## What a run leaves alone (R291) -/

theorem run_pc_le : ∀ {k : Nat} {s t : State}, run k s = .next t → s.pc ≤ t.pc
  | 0, s, t, h => by rw [Host.Outcome.next.inj h]
  | k + 1, s, t, h => by
    obtain ⟨u, hu, ht⟩ := (run_succ k s t).mp h
    exact (step_pc_le hu).1.trans (run_pc_le ht)

/-- A register that no statement completed by the run names as a destination keeps what it held. -/
theorem run_get_of_not_written {r : RegName} {prog : List Instr} : ∀ {k : Nat} {s t : State},
    s.params.statements = .ok prog → run k s = .next t →
    (∀ j i, s.pc ≤ j → j < t.pc → prog[j]? = some i → r ∉ destNames i) → t.regs.get r = s.regs.get r
  | 0, s, t, _, hrun, _ => by rw [Host.Outcome.next.inj hrun]
  | k + 1, s, t, hprog, hrun, hnot => by
    obtain ⟨u, hu, ht⟩ := (run_succ k s t).mp hrun
    have hrest : t.regs.get r = u.regs.get r := run_get_of_not_written (step_params hu ▸ hprog) ht
      fun j i hj => hnot j i ((step_pc_le hu).1.trans hj)
    obtain ⟨prog', i, _, hprog', hi, _, ⟨q, _, rfl⟩ | ⟨_, hpc, ⟨_, _, hframe⟩, _⟩⟩ := step_cases hu
    · exact hrest
    · obtain rfl : prog = prog' := Except.ok.inj (hprog.symm.trans hprog')
      have hpc_lt : s.pc < t.pc := by have := run_pc_le ht; omega
      exact hrest.trans (hframe r (hnot s.pc i (Nat.le_refl _) hpc_lt hi))

theorem mem_take_drop {prog : List Instr} {m n j : Nat} {i : Instr} (hm : m ≤ j) (hn : j < n)
    (hi : prog[j]? = some i) : i ∈ (prog.drop m).take (n - m) := by
  refine List.mem_of_getElem? (i := j - m) ?_
  rw [List.getElem?_take_of_lt (by omega), List.getElem?_drop, Nat.add_sub_cancel' hm, hi]

/-- Settles O34: the statements completed by the run are those from the first `pc` up to the last. -/
theorem registersKeepTheirValues : Obligations.RegistersKeepTheirValues :=
  fun _ _ _ _ _ hprog hrun hnot =>
    run_get_of_not_written hprog hrun fun _ i hm hn hi => hnot i (mem_take_drop hm hn hi)

/-! ## What a run depends on (R45) -/

/-- The two states differ at most in registers outside `names`. -/
def AgreeOn (names : List RegName) (s₁ s₂ : State) : Prop :=
  s₂.params = s₁.params ∧ s₂.pc = s₁.pc ∧ s₂.fault = s₁.fault ∧ ∀ r ∈ names, s₁.regs.get r = s₂.regs.get r

/-- States that agree on the sources of a statement read the same values. -/
theorem operandValues_of_agreeOn {names : List RegName} {s₁ s₂ : State} {i : Instr} (h : AgreeOn names s₁ s₂)
    (hi : ∀ r ∈ sourceNames i.reads, r ∈ names) : operandValues s₁ i.reads = operandValues s₂ i.reads := by
  obtain ⟨_, _, _, hregs⟩ := h
  refine operandValues_congr fun x hx => operand_congr fun r hr => hregs r (hi r (mem_sourceNames.mpr ⟨x.1, ?_⟩))
  rw [← hr]
  exact hx

theorem exec_agreeOn {names : List RegName} {s₁ s₂ t₁ : State} {i : Instr} (h : AgreeOn names s₁ s₂)
    (hi : ∀ r ∈ sourceNames i.reads, r ∈ names) (hexec : exec i s₁ = .next t₁) :
    ∃ t₂, exec i s₂ = .next t₂ ∧ AgreeOn names t₁ t₂ := by
  have hvalues := operandValues_of_agreeOn h hi
  obtain ⟨hparams, hpc, hfault, hregs⟩ := h
  rcases exec_cases i s₁ with ⟨r, hr, he⟩ | ⟨hn, u₁, he, hpc₁, ⟨hparams₁, hfault₁, _⟩, _⟩
  · obtain rfl := Host.Outcome.next.inj (hexec.symm.trans he)
    have hr₂ : firstUnread s₂ i.reads = some r := by
      rw [← operandValues_error_iff, ← hvalues, operandValues_error_iff, hr]
    exact ⟨_, exec_of_firstUnread_some hr₂, hparams, hpc, by simp [hpc], hregs⟩
  · obtain rfl := Host.Outcome.next.inj (hexec.symm.trans he)
    obtain ⟨u₁, t₂, he₁, he₂, hget⟩ := exec_congr hvalues hn
    obtain rfl := Host.Outcome.next.inj (hexec.symm.trans he₁)
    have hn₂ : firstUnread s₂ i.reads = none := by
      rw [← operandValues_ok_iff, ← hvalues, operandValues_ok_iff, hn]
    rcases exec_cases i s₂ with ⟨r, hr, _⟩ | ⟨_, u₂, he', hpc₂, ⟨hparams₂, hfault₂, _⟩, _⟩
    · rw [hn₂] at hr
      cases hr
    · obtain rfl := Host.Outcome.next.inj (he₂.symm.trans he')
      exact ⟨t₂, he₂, hparams₂.trans (hparams.trans hparams₁.symm), by omega,
        hfault₂.trans (hfault.trans hfault₁.symm), fun r hr => hget r (.inr (hregs r hr))⟩

theorem step_agreeOn {names : List RegName} {s₁ s₂ t₁ : State} {prog : List Instr}
    (hprog : s₁.params.statements = .ok prog) (hsources : ∀ i ∈ prog, ∀ r ∈ sourceNames i.reads, r ∈ names)
    (h : AgreeOn names s₁ s₂) (hstep : step s₁ = .next t₁) :
    ∃ t₂, step s₂ = .next t₂ ∧ AgreeOn names t₁ t₂ := by
  obtain ⟨prog', i, hfault, hprog', hi, hexec, _⟩ := step_cases hstep
  obtain rfl : prog = prog' := Except.ok.inj (hprog.symm.trans hprog')
  obtain ⟨t₂, he, ht⟩ := exec_agreeOn h (hsources i (List.mem_of_getElem? hi)) hexec
  obtain ⟨hparams, hpc, hfault₂, _⟩ := h
  exact ⟨t₂, (step_of_getElem? (hfault₂.trans hfault) (hparams ▸ hprog) (hpc ▸ hi)).trans he, ht⟩

theorem run_agreeOn {names : List RegName} {prog : List Instr}
    (hsources : ∀ i ∈ prog, ∀ r ∈ sourceNames i.reads, r ∈ names) : ∀ {k : Nat} {s₁ s₂ t₁ : State},
    s₁.params.statements = .ok prog → AgreeOn names s₁ s₂ → run k s₁ = .next t₁ →
    ∃ t₂, run k s₂ = .next t₂ ∧ AgreeOn names t₁ t₂
  | 0, _, s₂, _, _, h, hrun => ⟨s₂, rfl, Host.Outcome.next.inj hrun ▸ h⟩
  | k + 1, s₁, s₂, t₁, hprog, h, hrun => by
    obtain ⟨u₁, hu₁, ht₁⟩ := (run_succ k s₁ t₁).mp hrun
    obtain ⟨u₂, hu₂, hu⟩ := step_agreeOn hprog hsources h hu₁
    obtain ⟨t₂, ht₂, ht⟩ := run_agreeOn hsources (step_params hu₁ ▸ hprog) hu ht₁
    exact ⟨t₂, (run_succ k s₂ t₂).mpr ⟨u₂, hu₂, ht₂⟩, ht⟩

/-- Settles O35, by a simulation: two states that agree on the registers read take steps to states that agree on them. -/
theorem runDependsOnRegistersRead : Obligations.RunDependsOnRegistersRead := by
  intro k s₁ s₂ t₁ prog names hprog hparams hpc hfault hsources hregs hrun
  obtain ⟨t₂, ht₂, _, hpc', hfault', hregs'⟩ := run_agreeOn hsources hprog ⟨hparams, hpc, hfault, hregs⟩ hrun
  exact ⟨t₂, ht₂, hpc', hfault', hregs'⟩

end Sys2Proof.Machine
end

section
/-! Proofs about the load of one statement (notes/assumptions/4.md): the loaded statement is well formed under the
parameters it is loaded with, and its sources can be read. -/

namespace Sys2Proof.Machine

/-- The parameters under which a term's text is loaded. -/
def loadedParams (p : Params) (i : Instr) : Params :=
  { p with program := encode i, decl := i.writes.map Prod.swap ++ sourceDecl i.reads ++ p.decl }

theorem loadText_encode {i : Instr} (hi : i.Spelled) (s : State) :
    s.loadText (encode i) = giveValues i.reads { s with params := loadedParams s.params i, pc := 0, fault := none } := by
  rw [State.loadText, decode_encode hi]; rfl

theorem loadText_fields {i : Instr} (hi : i.Spelled) (s : State) :
    (s.loadText (encode i)).params = loadedParams s.params i ∧ (s.loadText (encode i)).pc = 0 ∧
      (s.loadText (encode i)).fault = none := by
  rw [loadText_encode hi]
  exact giveValues_fields _ _

theorem mem_sourceDecl {r : RegName} {w : Width} : ∀ {rs : List (Width × Src)},
    (r, w) ∈ sourceDecl rs → (w, Src.reg r) ∈ rs
  | [], h => by cases h
  | (u, .reg q) :: rest, h => by
    rcases List.mem_cons.mp h with h | h
    · obtain ⟨rfl, rfl⟩ := Prod.mk.inj h
      exact List.mem_cons_self
    · exact List.mem_cons_of_mem _ (mem_sourceDecl h)
  | (u, .imm v) :: rest, h => List.mem_cons_of_mem _ (mem_sourceDecl (rs := rest) h)

/-- Entries that say what the declarations already say change no class. -/
theorem classOf_append {l decl : RegDecl} (h : ∀ r w, (r, w) ∈ l → decl.classOf r = some w) (q : RegName) :
    RegDecl.classOf (l ++ decl) q = decl.classOf q := by
  induction l with
  | nil => rfl
  | cons x l ih =>
    obtain ⟨k, w⟩ := x
    rw [List.cons_append, RegDecl.classOf, ih fun r w hr => h r w (List.mem_cons_of_mem _ hr)]
    by_cases hk : k = q
    · rw [if_pos hk, ← hk, h k w List.mem_cons_self]
    · rw [if_neg hk]

/-- The load declares the registers of a well-formed statement as they were declared. -/
theorem loadedParams_classOf {p : Params} {i : Instr} (hi : i.WellFormed p) (q : RegName) :
    (loadedParams p i).decl.classOf q = p.decl.classOf q := by
  refine classOf_append (fun r w h => ?_) q
  rcases List.mem_append.mp h with h | h
  · obtain ⟨⟨w', r'⟩, hmem, hswap⟩ := List.mem_map.mp h
    obtain ⟨rfl, rfl⟩ := Prod.mk.inj hswap
    exact classOf_of_mem_writes hi hmem
  · exact classOf_of_mem_reads hi (mem_sourceDecl h)

theorem loadedParams_statements {p : Params} {i : Instr} (hi : i.WellFormed p) :
    (loadedParams p i).statements = .ok [i] := by
  have hwf : i.WellFormed (loadedParams p i) :=
    (wellFormed_congr p (loadedParams p i) rfl rfl (loadedParams_classOf hi)).mpr hi
  exact (statements_eq_ok _ _).mpr ⟨transcribe_encode (spelled_of_wellFormed hi), by simpa using hwf⟩

/-- The load gives every source a value, because a well-formed statement names no register at two classes. -/
theorem firstUnread_loadText {s : State} {i : Instr} (hi : i.WellFormed s.params) :
    firstUnread (s.loadText (encode i)) i.reads = none := by
  rw [firstUnread_eq_none, loadText_encode (spelled_of_wellFormed hi)]
  refine giveValues_reads i.reads _ ?_
  rintro ⟨w, o⟩ hx ⟨w', o'⟩ hy r rfl rfl
  exact Option.some.inj ((classOf_of_mem_reads hi hx).symm.trans (classOf_of_mem_reads hi hy))

/-- Settles O36: the loaded program is the statement alone, and all its sources can be read. -/
theorem loadedStatementRuns : Obligations.LoadedStatementRuns := by
  intro s i hi
  obtain ⟨hparams, hpc, hfault⟩ := loadText_fields (spelled_of_wellFormed hi) s
  have hstep : step (s.loadText (encode i)) = exec i (s.loadText (encode i)) :=
    step_of_getElem? hfault (hparams ▸ loadedParams_statements hi) (by rw [hpc]; rfl)
  refine ⟨hstep, ?_⟩
  rcases exec_cases i (s.loadText (encode i)) with ⟨r, hr, _⟩ | ⟨_, t, hexec, hpc', ⟨_, hkept, _⟩, _⟩
  · rw [firstUnread_loadText hi] at hr
    cases hr
  · exact ⟨t, hstep.trans hexec, hkept.trans hfault, by rw [hpc', hpc]⟩

end Sys2Proof.Machine
end

section
/-! Proofs about the operands of each form and which statements are well formed (spec/10_state.md R34,
spec/30_encoding.md R84 to R89, spec/00_scope.md R6 and R7). -/

namespace Sys2Proof.Machine

/-! ## The forms of each format (R82, R92) -/

/-- Format F3 with both sources of the class of the type suffix. -/
def formsF3 : List (Width × (RegName → Src → Src → Instr)) :=
  [(.pred, .andPred), (.w16, .andB16), (.w32, .andB32), (.w64, .andB64),
    (.pred, .orPred), (.w16, .orB16), (.w32, .orB32), (.w64, .orB64),
    (.pred, .xorPred), (.w16, .xorB16), (.w32, .xorB32), (.w64, .xorB64)]

/-- Format F2. -/
def formsF2 : List (Width × (RegName → Src → Instr)) :=
  [(.pred, .notPred), (.w16, .notB16), (.w32, .notB32), (.w64, .notB64),
    (.w16, .cnotB16), (.w32, .cnotB32), (.w64, .cnotB64)]

/-- Format F3 of `shl` and `shr`. -/
def formsF3Shift : List (Width × (RegName → Src → Src → Instr)) :=
  [(.w16, .shlB16), (.w32, .shlB32), (.w64, .shlB64),
    (.w16, .shrB16), (.w32, .shrB32), (.w64, .shrB64), (.w16, .shrU16), (.w32, .shrU32), (.w64, .shrU64),
    (.w16, .shrS16), (.w32, .shrS32), (.w64, .shrS64)]

theorem layout_formsF3 {w : Width} {mk : RegName → Src → Src → Instr} (h : (w, mk) ∈ formsF3) (d : RegName)
    (a b : Src) : ∃ m, (mk d a b).layout = .f3 m w d a b := by
  unfold formsF3 at h
  fin_cases h <;> exact ⟨_, rfl⟩

theorem layout_formsF2 {w : Width} {mk : RegName → Src → Instr} (h : (w, mk) ∈ formsF2) (d : RegName) (a : Src) :
    ∃ m, (mk d a).layout = .f2 m w d a := by
  unfold formsF2 at h
  fin_cases h <;> exact ⟨_, rfl⟩

theorem layout_formsF3Shift {w : Width} {mk : RegName → Src → Src → Instr} (h : (w, mk) ∈ formsF3Shift) (d : RegName)
    (a b : Src) : ∃ m, (mk d a b).layout = .f3Shift m w d a b := by
  unfold formsF3Shift at h
  fin_cases h <;> exact ⟨_, rfl⟩

theorem layout_shf {mk : RegName → Src → Src → Src → Instr}
    (h : mk ∈ [Instr.shfLClampB32, Instr.shfLWrapB32, Instr.shfRClampB32, Instr.shfRWrapB32]) (d : RegName)
    (a b c : Src) : ∃ m, (mk d a b c).layout = .fs m d a b c := by
  fin_cases h <;> exact ⟨_, rfl⟩

theorem layout_lop3Bool {mk : DstSink → RegName → Src → Src → Src → Nat → Src → Instr}
    (h : mk ∈ [Instr.lop3OrB32, Instr.lop3AndB32]) (d : DstSink) (p : RegName) (a b c : Src) (l : Nat) (q : Src) :
    ∃ m, (mk d p a b c l q).layout = .flb m d p a b c l q := by
  fin_cases h <;> exact ⟨_, rfl⟩

/-! ## The operands of each format (R34, R252) -/

section operands
variable {i : Instr} {m : String} {w : Width} {d : RegName} {a b c q : Src}

theorem operands_of_f2 (h : i.layout = .f2 m w d a) : i.reads = [(w, a)] ∧ i.writes = [(w, d)] := by
  simp [Instr.reads, Instr.writes, h]

theorem operands_of_f3 (h : i.layout = .f3 m w d a b) : i.reads = [(w, a), (w, b)] ∧ i.writes = [(w, d)] := by
  simp [Instr.reads, Instr.writes, h]

theorem operands_of_f3Shift (h : i.layout = .f3Shift m w d a b) :
    i.reads = [(w, a), (.w32, b)] ∧ i.writes = [(w, d)] := by
  simp [Instr.reads, Instr.writes, h]

theorem operands_of_fl {l : Nat} (h : i.layout = .fl m d a b c l) :
    i.reads = [(.w32, a), (.w32, b), (.w32, c)] ∧ i.writes = [(.w32, d)] := by
  simp [Instr.reads, Instr.writes, h]

theorem operands_of_fs (h : i.layout = .fs m d a b c) :
    i.reads = [(.w32, a), (.w32, b), (.w32, c)] ∧ i.writes = [(.w32, d)] := by
  simp [Instr.reads, Instr.writes, h]

theorem operands_of_flb {d : DstSink} {p : RegName} {l : Nat} (h : i.layout = .flb m d p a b c l q) :
    i.reads = [(.w32, a), (.w32, b), (.w32, c), (.pred, q)] ∧ i.writes = pairDests d p := by
  cases d <;> simp [Instr.reads, Instr.writes, pairDests, h]

end operands

/-- Settles O16: the operands of a form are those of its format. -/
theorem operandTable : Obligations.OperandTable := by
  refine ⟨fun w mk h d a b => ?f3, fun w mk h d a => ?f2, fun d a b c l => operands_of_fl rfl,
    fun mk h p a b c l q => ⟨fun d => ?pairReads, fun d => ?pairWrites, ?sinkWrites⟩, fun mk h d a b c => ?fs,
    fun w mk h d a b => ?f3Shift⟩
  case f3 => obtain ⟨m, hm⟩ := layout_formsF3 h d a b; exact operands_of_f3 hm
  case f2 => obtain ⟨m, hm⟩ := layout_formsF2 h d a; exact operands_of_f2 hm
  case pairReads => obtain ⟨m, hm⟩ := layout_lop3Bool h d p a b c l q; exact (operands_of_flb hm).1
  case pairWrites => obtain ⟨m, hm⟩ := layout_lop3Bool h (.reg d) p a b c l q; exact (operands_of_flb hm).2
  case sinkWrites => obtain ⟨m, hm⟩ := layout_lop3Bool h .sink p a b c l q; exact (operands_of_flb hm).2
  case fs => obtain ⟨m, hm⟩ := layout_shf h d a b c; exact operands_of_fs hm
  case f3Shift => obtain ⟨m, hm⟩ := layout_formsF3Shift h d a b; exact operands_of_f3Shift hm

/-! ## When a term of each format is well formed (R6, R7, R84 to R88) -/

section wellFormed
variable {params : Params} {i : Instr} {m : String} {w : Width} {d : RegName} {a b c q : Src} {l : Nat}

/-- The requirement of a form, its destinations, its sources and its table constant, each by itself. -/
theorem wellFormed_iff_of {ws : List (Width × RegName)} {rs : List (Width × Src)} (v : PtxVersion) (t : Nat)
    (hgate : i.gate = ⟨v, t⟩) (hops : i.reads = rs ∧ i.writes = ws) :
    i.WellFormed params ↔ Allows params v.major v.minor t ∧ (∀ x ∈ ws, RegAt params x.1 x.2) ∧
      (∀ x ∈ rs, SrcAt params x.1 x.2) ∧ ∀ v, i.lut? = some v → v < 256 := by
  rw [wellFormed_iff, hgate, admits_iff, hops.1, hops.2]

theorem wellFormed_f2 (h : i.layout = .f2 m w d a) :
    i.WellFormed params ↔ Allows params 1 0 0 ∧ RegAt params w d ∧ SrcAt params w a := by
  rw [wellFormed_iff_of ⟨1, 0⟩ 0 (by simp [Instr.gate, h, Config.gateBase]) (operands_of_f2 h)]
  simp [Instr.lut?, h]

theorem wellFormed_f3 (h : i.layout = .f3 m w d a b) :
    i.WellFormed params ↔ Allows params 1 0 0 ∧ RegAt params w d ∧ SrcAt params w a ∧ SrcAt params w b := by
  rw [wellFormed_iff_of ⟨1, 0⟩ 0 (by simp [Instr.gate, h, Config.gateBase]) (operands_of_f3 h)]
  simp [Instr.lut?, h]

theorem wellFormed_f3Shift (h : i.layout = .f3Shift m w d a b) :
    i.WellFormed params ↔ Allows params 1 0 0 ∧ RegAt params w d ∧ SrcAt params w a ∧ SrcAt params .w32 b := by
  rw [wellFormed_iff_of ⟨1, 0⟩ 0 (by simp [Instr.gate, h, Config.gateBase]) (operands_of_f3Shift h)]
  simp [Instr.lut?, h]

theorem wellFormed_fs (h : i.layout = .fs m d a b c) :
    i.WellFormed params ↔ Allows params 3 1 32 ∧ RegAt params .w32 d ∧ SrcAt params .w32 a ∧ SrcAt params .w32 b ∧
      SrcAt params .w32 c := by
  rw [wellFormed_iff_of ⟨3, 1⟩ 32 (by simp [Instr.gate, h, Config.gateShf]) (operands_of_fs h)]
  simp [Instr.lut?, h]

theorem wellFormed_fl (h : i.layout = .fl m d a b c l) :
    i.WellFormed params ↔ Allows params 4 3 50 ∧ RegAt params .w32 d ∧ SrcAt params .w32 a ∧ SrcAt params .w32 b ∧
      SrcAt params .w32 c ∧ l < 256 := by
  rw [wellFormed_iff_of ⟨4, 3⟩ 50 (by simp [Instr.gate, h, Config.gateLop3]) (operands_of_fl h)]
  simp [Instr.lut?, h, and_assoc]

/-- The destinations of `d|p` are legal where `d` is the sink or a register of class 32, and `p` a predicate. -/
theorem regAt_pairDests {d : DstSink} {p : RegName} :
    (∀ x ∈ pairDests d p, RegAt params x.1 x.2) ↔ DstSinkAt params d ∧ RegAt params .pred p := by
  cases d <;> simp [pairDests, DstSinkAt]

theorem wellFormed_flb {d : DstSink} {p : RegName} (h : i.layout = .flb m d p a b c l q) :
    i.WellFormed params ↔ Allows params 8 2 70 ∧ DstSinkAt params d ∧ RegAt params .pred p ∧ SrcAt params .w32 a ∧
      SrcAt params .w32 b ∧ SrcAt params .w32 c ∧ l < 256 ∧ SrcAt params .pred q := by
  rw [wellFormed_iff_of ⟨8, 2⟩ 70 (by simp [Instr.gate, h, Config.gateLop3Bool]) (operands_of_flb h), regAt_pairDests]
  simp only [List.forall_mem_cons, List.not_mem_nil, Instr.lut?, h]
  simp
  tauto

end wellFormed

/-- Settles O45: every one of the forms has format F3 or F2. -/
theorem logicWellFormed : Obligations.LogicWellFormed := by
  refine ⟨fun w mk h p d a b => ?f3, fun w mk h p d a => ?f2⟩
  case f3 => obtain ⟨m, hm⟩ := layout_formsF3 h d a b; exact wellFormed_f3 hm
  case f2 => obtain ⟨m, hm⟩ := layout_formsF2 h d a; exact wellFormed_f2 hm

/-- A register has one class, so the destinations of `d|p` are different (R112). -/
theorem dstSink_ne_of_regAt {p : Params} {d : DstSink} {x : RegName} (hd : DstSinkAt p d) (hx : RegAt p .pred x) :
    d ≠ .reg x := by
  rintro rfl
  rcases hd with h | ⟨r, h, hr⟩
  · cases h
  · obtain rfl := DstSink.reg.inj h
    cases hr.2.symm.trans hx.2

/-- No literal is a predicate (R85). -/
theorem exists_reg_of_srcAt_pred {p : Params} {q : Src} (h : SrcAt p .pred q) : ∃ r, q = .reg r := by
  rcases h with ⟨r, hr, _⟩ | ⟨v, _, hne, _⟩
  · exact ⟨r, hr⟩
  · exact absurd rfl hne

/-- Settles O46: formats FL and FLB; the classes of `d`, `p` and `q` say the rest. -/
theorem lop3WellFormed : Obligations.Lop3WellFormed := by
  refine ⟨fun p d a b c l => wellFormed_fl rfl, fun mk h p d x a b c l q => ?_⟩
  obtain ⟨m, hm⟩ := layout_lop3Bool h d x a b c l q
  refine ⟨wellFormed_flb hm, fun hwf => ?_⟩
  obtain ⟨_, hd, hx, _, _, _, _, hq⟩ := (wellFormed_flb hm).mp hwf
  exact ⟨dstSink_ne_of_regAt hd hx, exists_reg_of_srcAt_pred hq⟩

/-- Settles O47: every one of the forms has format FS, or the format F3 of the shifts. -/
theorem shiftWellFormed : Obligations.ShiftWellFormed := by
  refine ⟨fun mk h p d a b c => ?fs, fun w mk h p d a b => ?f3Shift⟩
  case fs => obtain ⟨m, hm⟩ := layout_shf h d a b c; exact wellFormed_fs hm
  case f3Shift => obtain ⟨m, hm⟩ := layout_formsF3Shift h d a b; exact wellFormed_f3Shift hm

/-! ## The default parameters (R6, R7, R109) -/

theorem checkReg_ne_versionOrTarget (p : Params) (w : Width) (r : RegName) :
    p.checkReg w r ≠ some .versionOrTarget := by
  unfold Params.checkReg
  split_ifs
  · simp
  · simp
  · split
    · simp
    · split_ifs <;> simp

theorem checkSrc_ne_versionOrTarget (p : Params) (w : Width) (o : Src) : p.checkSrc w o ≠ some .versionOrTarget := by
  cases o with
  | reg r => exact checkReg_ne_versionOrTarget p w r
  | imm v => unfold Params.checkSrc; split_ifs <;> simp

theorem checkWrites_ne_versionOrTarget (p : Params) : ∀ ws, p.checkWrites ws ≠ some .versionOrTarget
  | [] => by simp [Params.checkWrites]
  | (w, d) :: rest => by
    rw [Params.checkWrites]
    split
    next e he => exact he ▸ checkReg_ne_versionOrTarget p w d
    next => exact checkWrites_ne_versionOrTarget p rest

theorem checkReads_ne_versionOrTarget (p : Params) : ∀ rs, p.checkReads rs ≠ some .versionOrTarget
  | [] => by simp [Params.checkReads]
  | (w, o) :: rest => by
    rw [Params.checkReads]
    split
    next e he => exact he ▸ checkSrc_ne_versionOrTarget p w o
    next => exact checkReads_ne_versionOrTarget p rest

theorem checkLut_ne_versionOrTarget (l : Option Nat) : checkLut l ≠ some .versionOrTarget := by
  cases l with
  | none => simp [checkLut]
  | some v => rw [checkLut]; split_ifs <;> simp

/-- The refusal by version or target names the failing of that check, and of no other. -/
theorem check_eq_versionOrTarget_iff (p : Params) (i : Instr) :
    i.check p = some .versionOrTarget ↔ p.admits i.gate = false := by
  unfold Instr.check
  cases p.admits i.gate with
  | false => simp
  | true =>
    simp only [Bool.true_eq_false, if_false, iff_false]
    split
    next e he => exact he ▸ checkWrites_ne_versionOrTarget p i.writes
    next =>
      split
      next e he => exact he ▸ checkReads_ne_versionOrTarget p i.reads
      next => exact checkLut_ne_versionOrTarget i.lut?

theorem allows_of_lt {p : Params} {major minor target major' minor' target' : Nat} (h : Allows p major minor target)
    (hmajor : major' < major) (htarget : target' ≤ target) : Allows p major' minor' target' := by
  obtain ⟨hversion, htarget'⟩ := h
  exact ⟨by omega, by omega⟩

/-- `lop3` with `.BoolOp` requires the most. -/
theorem admits_of_allows {p : Params} (h : Allows p 8 2 70) (i : Instr) : p.admits i.gate = true := by
  have hgate : i.gate = Config.gateBase ∨ i.gate = Config.gateLop3 ∨ i.gate = Config.gateLop3Bool ∨
      i.gate = Config.gateShf := by
    unfold Instr.gate; cases i.layout <;> simp
  rcases hgate with hg | hg | hg | hg <;> rw [hg]
  · exact (admits_iff p ⟨1, 0⟩ 0).mpr (allows_of_lt h (by decide) (by decide))
  · exact (admits_iff p ⟨4, 3⟩ 50).mpr (allows_of_lt h (by decide) (by decide))
  · exact (admits_iff p ⟨8, 2⟩ 70).mpr h
  · exact (admits_iff p ⟨3, 1⟩ 32).mpr (allows_of_lt h (by decide) (by decide))

/-- Settles O48: parameters that are enough for `lop3` with `.BoolOp` are enough for every form, and that form is one of them. -/
theorem defaultsAdmitEveryForm : Obligations.DefaultsAdmitEveryForm := by
  refine ⟨rfl, rfl, fun p => ⟨fun h i hi => ?_, fun h => ?_⟩⟩
  · rw [check_eq_versionOrTarget_iff, admits_of_allows h i] at hi
    cases hi
  · have hlop3 := h (.lop3OrB32 .sink [] (.imm 0) (.imm 0) (.imm 0) 0 (.imm 0))
    rw [ne_eq, check_eq_versionOrTarget_iff, Bool.not_eq_false] at hlop3
    exact (admits_iff p ⟨8, 2⟩ 70).mp hlop3

end Sys2Proof.Machine
end

section
/-! Proofs about the result of every form: the value it gives its destination, and that it changes nothing else
(spec/40_and.md to spec/48_shr.md). -/

namespace Sys2Proof.Machine

/-! ## From the value a format computes to what its forms answer -/

section completes
variable {w : Width}

/-- A form of format F2 gives `d` the value its function computes. -/
theorem completes1_of_logic1 {mk : RegName → Src → Instr} {P : BitVec w.bits → BitVec w.bits → Prop}
    (f : BitVec w.bits → BitVec w.bits) (hexec : ∀ d a s, exec (mk d a) s = logic1 w f d a s) (hf : ∀ va, P va (f va)) :
    Completes1 w mk P :=
  fun s d a va ha => ⟨f va, hf va, yields_of_next ((hexec d a s).trans (logic1_next f ha))⟩

theorem completes2_of_logic2 {mk : RegName → Src → Src → Instr} {P : BitVec w.bits → BitVec w.bits → BitVec w.bits → Prop}
    (f : BitVec w.bits → BitVec w.bits → BitVec w.bits) (hexec : ∀ d a b s, exec (mk d a b) s = logic2 w f d a b s)
    (hf : ∀ va vb, P va vb (f va vb)) : Completes2 w w mk P :=
  fun s d a b va vb ha hb => ⟨f va vb, hf va vb, yields_of_next ((hexec d a b s).trans (logic2_next f ha hb))⟩

theorem completes2_of_shift {mk : RegName → Src → Src → Instr} {P : BitVec w.bits → BitVec 32 → BitVec w.bits → Prop}
    (f : BitVec w.bits → BitVec 32 → BitVec w.bits) (hexec : ∀ d a b s, exec (mk d a b) s = shift w f d a b s)
    (hf : ∀ va vb, P va vb (f va vb)) : Completes2 w .w32 mk P :=
  fun s d a b va vb ha hb => ⟨f va vb, hf va vb, yields_of_next ((hexec d a b s).trans (shift_next f ha hb))⟩

theorem completes3_of_funnel {mk : RegName → Src → Src → Src → Instr}
    {P : BitVec 32 → BitVec 32 → BitVec 32 → BitVec 32 → Prop} (amount : BitVec 32 → Nat)
    (f : BitVec 32 → BitVec 32 → Nat → BitVec 32) (hexec : ∀ d a b c s, exec (mk d a b c) s = funnel amount f d a b c s)
    (hf : ∀ va vb vc, P va vb vc (f va vb (amount vc))) : Completes3 mk P :=
  fun s d a b c va vb vc ha hb hc =>
    ⟨f va vb (amount vc), hf va vb vc, yields_of_next ((hexec d a b c s).trans (funnel_next ha hb hc amount f))⟩

end completes

/-! ## `and`, `or` and `xor` (R130, R140, R150) -/

section bitwise
variable (w : Width) (va vb : BitVec w.bits)

theorem bitByBit_and : BitByBit w (fun x y => x && y) va vb (va &&& vb) :=
  fun _ _ => BitVec.getLsbD_and

theorem bitByBit_or : BitByBit w (fun x y => x || y) va vb (va ||| vb) :=
  fun _ _ => BitVec.getLsbD_or

theorem bitByBit_xor : BitByBit w (fun x y => x != y) va vb (va ^^^ vb) :=
  fun _ _ => BitVec.getLsbD_xor

end bitwise

/-- Settles O1: the bits of the word operation are the operation of the bits. -/
theorem andResult : Obligations.AndResult :=
  ⟨completes2_of_logic2 _ (fun _ _ _ _ => rfl) (bitByBit_and .pred),
    completes2_of_logic2 _ (fun _ _ _ _ => rfl) (bitByBit_and .w16),
    completes2_of_logic2 _ (fun _ _ _ _ => rfl) (bitByBit_and .w32),
    completes2_of_logic2 _ (fun _ _ _ _ => rfl) (bitByBit_and .w64)⟩

/-- Settles O2: the bits of the word operation are the operation of the bits. -/
theorem orResult : Obligations.OrResult :=
  ⟨completes2_of_logic2 _ (fun _ _ _ _ => rfl) (bitByBit_or .pred),
    completes2_of_logic2 _ (fun _ _ _ _ => rfl) (bitByBit_or .w16),
    completes2_of_logic2 _ (fun _ _ _ _ => rfl) (bitByBit_or .w32),
    completes2_of_logic2 _ (fun _ _ _ _ => rfl) (bitByBit_or .w64)⟩

/-- Settles O3: the bits of the word operation are the operation of the bits. -/
theorem xorResult : Obligations.XorResult :=
  ⟨completes2_of_logic2 _ (fun _ _ _ _ => rfl) (bitByBit_xor .pred),
    completes2_of_logic2 _ (fun _ _ _ _ => rfl) (bitByBit_xor .w16),
    completes2_of_logic2 _ (fun _ _ _ _ => rfl) (bitByBit_xor .w32),
    completes2_of_logic2 _ (fun _ _ _ _ => rfl) (bitByBit_xor .w64)⟩

/-! ## `not` and `cnot` (R160, R170) -/

/-- Settles O4: the complement of an N-bit number is `2 ^ N - 1` less the number. -/
theorem notResult : Obligations.NotResult :=
  ⟨completes1_of_logic1 _ (fun _ _ _ => rfl) fun _ => BitVec.toNat_not,
    completes1_of_logic1 _ (fun _ _ _ => rfl) fun _ => BitVec.toNat_not,
    completes1_of_logic1 _ (fun _ _ _ => rfl) fun _ => BitVec.toNat_not,
    completes1_of_logic1 _ (fun _ _ _ => rfl) fun _ => BitVec.toNat_not⟩

theorem isZero_toNat {n : Nat} (hn : 0 < n) (v : BitVec n) : (isZero v).toNat = if v.toNat = 0 then 1 else 0 := by
  have hone : 1 < 2 ^ n := Nat.one_lt_two_pow hn.ne'
  by_cases h : v = 0
  · simp [isZero, h, Nat.mod_eq_of_lt hone]
  · have hv : v.toNat ≠ 0 := fun e => h (BitVec.eq_of_toNat_eq e)
    rw [isZero, if_neg h, if_neg hv]
    simp

/-- Settles O5, by `isZero_toNat` at each width. -/
theorem cnotResult : Obligations.CnotResult :=
  ⟨completes1_of_logic1 _ (fun _ _ _ => rfl) (isZero_toNat (by decide)),
    completes1_of_logic1 _ (fun _ _ _ => rfl) (isZero_toNat (by decide)),
    completes1_of_logic1 _ (fun _ _ _ => rfl) (isZero_toNat (by decide))⟩

/-! ## `lop3` (R183 to R185) -/

/-- Settles O6: what is written is the result of the table, each bit of it looked up. -/
theorem lop3Result : Obligations.Lop3Result :=
  fun l _ _ _ _ _ va vb vc ha hb hc =>
    ⟨_, tableOf_lop3Table l va vb vc, yields_of_next (execLop3B32_next ha hb hc l)⟩

/-- A form of `lop3` with `.BoolOp` writes the looked-up value to `d` and its predicate to `p`. -/
theorem yieldsPair_of_lop3Bool {i : Instr} {s : State} {d : DstSink} {p : RegName} {a b c q : Src} {l : Nat}
    {va vb vc : BitVec 32} {vq : BitVec 1} {op : BitVec 1 → BitVec 1 → BitVec 1}
    (hexec : exec i s = lop3Bool op d p a b c l q s) (ha : s.operand .w32 a = .ok va) (hb : s.operand .w32 b = .ok vb)
    (hc : s.operand .w32 c = .ok vc) (hq : s.operand .pred q = .ok vq) (hne : d ≠ .reg p) :
    YieldsPair i s d p (lop3Table (BitVec.ofNat 8 l) va vb vc)
      (op (nonZero (lop3Table (BitVec.ofNat 8 l) va vb vc)) vq) :=
  ⟨_, hexec.trans (lop3Bool_next ha hb hc op d p l hq), readReg_pair_d s d p _ _ hne, readReg_pair_p s d p _ _,
    by simp, onlyWrites_pair s d p _ _⟩

/-- Settles O7: the predicates of the two forms are those of `boolOr_nonZero` and `boolAnd_nonZero`. -/
theorem lop3BoolResult : Obligations.Lop3BoolResult := by
  intro s d p a b c l q va vb vc vq ha hb hc hq hne
  refine ⟨_, tableOf_lop3Table l va vb vc, ?_, ?_⟩
  · rw [← boolOr_nonZero]
    exact yieldsPair_of_lop3Bool rfl ha hb hc hq hne
  · rw [← boolAnd_nonZero]
    exact yieldsPair_of_lop3Bool rfl ha hb hc hq hne

/-! ## `shf` (R201 to R205) -/

/-- Settles O9: the funnel as a number, at the clamped and at the wrapped amount. -/
theorem shfLeftResult : Obligations.ShfLeftResult :=
  ⟨completes3_of_funnel _ _ (fun _ _ _ _ _ => rfl) fun va vb _ => funnelLeft_toNat va vb _,
    completes3_of_funnel _ _ (fun _ _ _ _ _ => rfl) fun va vb vc =>
      wrapAmount_eq_mod vc ▸ funnelLeft_toNat va vb (wrapAmount vc)⟩

/-- Settles O10: the funnel as a number, at the clamped and at the wrapped amount. -/
theorem shfRightResult : Obligations.ShfRightResult :=
  ⟨completes3_of_funnel _ _ (fun _ _ _ _ _ => rfl) fun va vb _ => funnelRight_toNat va vb _,
    completes3_of_funnel _ _ (fun _ _ _ _ _ => rfl) fun va vb vc =>
      wrapAmount_eq_mod vc ▸ funnelRight_toNat va vb (wrapAmount vc)⟩

/-! ## `shl` and `shr` (R220, R230, R231) -/

/-- Settles O11, by the value of the shift at each width. -/
theorem shlResult : Obligations.ShlResult :=
  ⟨completes2_of_shift _ (fun _ _ _ _ => rfl) (shlBits_toNat .w16),
    completes2_of_shift _ (fun _ _ _ _ => rfl) (shlBits_toNat .w32),
    completes2_of_shift _ (fun _ _ _ _ => rfl) (shlBits_toNat .w64)⟩

/-- Settles O12, by the value of the shift at each width, the same for `.bN` and `.uN`. -/
theorem shrZeroFillResult : Obligations.ShrZeroFillResult :=
  ⟨completes2_of_shift _ (fun _ _ _ _ => rfl) (shrZeroBits_toNat .w16),
    completes2_of_shift _ (fun _ _ _ _ => rfl) (shrZeroBits_toNat .w32),
    completes2_of_shift _ (fun _ _ _ _ => rfl) (shrZeroBits_toNat .w64),
    completes2_of_shift _ (fun _ _ _ _ => rfl) (shrZeroBits_toNat .w16),
    completes2_of_shift _ (fun _ _ _ _ => rfl) (shrZeroBits_toNat .w32),
    completes2_of_shift _ (fun _ _ _ _ => rfl) (shrZeroBits_toNat .w64)⟩

/-- Settles O13, by the two's complement value of the shift at each width. -/
theorem shrSignFillResult : Obligations.ShrSignFillResult :=
  ⟨completes2_of_shift _ (fun _ _ _ _ => rfl) (shrSignBits_toInt .w16),
    completes2_of_shift _ (fun _ _ _ _ => rfl) (shrSignBits_toInt .w32),
    completes2_of_shift _ (fun _ _ _ _ => rfl) (shrSignBits_toInt .w64)⟩

end Sys2Proof.Machine
end

section
/-! Proofs about the laws the spec derives: every Boolean function has one table, the funnel in words, and shifts of numbers
of any length (spec/45_lop3.md R180 and R181, spec/46_shf.md R201, R208 and R209). -/

namespace Sys2Proof.Machine

/-! ## Every Boolean function has one table (R180, R181) -/

/-- The bits of the operands of the recipe of R189 at position `k` are the bits 2, 1 and 0 of `k`. -/
theorem recipe_testBit : ∀ k, k < 8 → (0xF0 : BitVec 32).getLsbD k = k.testBit 2 ∧
    (0xCC : BitVec 32).getLsbD k = k.testBit 1 ∧ (0xAA : BitVec 32).getLsbD k = k.testBit 0 := by
  decide

/-- The table of a function: entry `k` is the function at the bits of `k`. -/
def tableOfFunction (f : Bool → Bool → Bool → Bool) : BitVec 8 :=
  BitVec.ofFnLE fun k : Fin 8 => f (k.val.testBit 2) (k.val.testBit 1) (k.val.testBit 0)

theorem tableOfFunction_getLsbD (f : Bool → Bool → Bool → Bool) {k : Nat} (hk : k < 8) :
    (tableOfFunction f).getLsbD k = f (k.testBit 2) (k.testBit 1) (k.testBit 0) := by
  rw [tableOfFunction, BitVec.getLsbD_ofFnLE, dif_pos hk]

/-- The bits 2, 1 and 0 of the number of the entry looked up are the inputs. -/
theorem index_testBit : ∀ x y z : Bool, (4 * x.toNat + 2 * y.toNat + z.toNat).testBit 2 = x ∧
    (4 * x.toNat + 2 * y.toNat + z.toNat).testBit 1 = y ∧ (4 * x.toNat + 2 * y.toNat + z.toNat).testBit 0 = z := by
  decide

theorem lop3Bit_tableOfFunction (f : Bool → Bool → Bool → Bool) (x y z : Bool) :
    lop3Bit (tableOfFunction f) x y z = f x y z := by
  obtain ⟨hx, hy, hz⟩ := index_testBit x y z
  rw [lop3Bit, tableOfFunction_getLsbD f (tableIndex_lt x y z), hx, hy, hz]

/-- Settles O50: the operands of the recipe look up every entry, so a table that computes the function is its table. -/
theorem lop3EveryFunctionOnce : Obligations.Lop3EveryFunctionOnce := by
  intro f
  refine ⟨tableOfFunction f, fun k hk => tableOfFunction_getLsbD f hk, fun m => ⟨fun h => ?_, ?_⟩⟩
  · refine BitVec.eq_of_getLsbD_eq fun k hk => ?_
    have hentry := h 0xF0 0xCC 0xAA k (by omega)
    obtain ⟨hx, hy, hz⟩ := recipe_testBit k hk
    rw [lop3Table_getLsbD _ _ _ _ _ (by omega), lop3Bit, index_of_recipe k hk, hx, hy, hz] at hentry
    rw [hentry, tableOfFunction_getLsbD f hk]
  · rintro rfl va vb vc i hi
    rw [lop3Table_getLsbD _ _ _ _ _ hi, lop3Bit_tableOfFunction]

/-! ## The funnel in words (R201) -/

/-- Bit `i` of `shf.r` comes from `a` below the cut and from `b` above it, and the two sub-shifts leave zeros elsewhere. -/
theorem funnelRight_eq_or (va vb : BitVec 32) {n : Nat} (hn : n ≤ 32) :
    funnelRight va vb n = (vb <<< (32 - n)) ||| (va >>> n) :=
  BitVec.eq_of_getLsbD_eq fun i hi => by
    rw [funnelRight_getLsbD va vb n i hi, BitVec.getLsbD_or, BitVec.getLsbD_shiftLeft, BitVec.getLsbD_ushiftRight]
    by_cases h : n + i < 32
    · have hlow : i < 32 - n := by omega
      simp [h, hlow]
    · have hhigh : ¬ i < 32 - n := by omega
      have hbit : n + i - 32 = i - (32 - n) := by omega
      have hzero : va.getLsbD (n + i) = false := BitVec.getLsbD_of_ge va _ (by omega)
      simp [h, hhigh, hi, hbit, hzero]

/-- Settles O53: `shf.l` by `n` is `shf.r` by `32 - n`. -/
theorem funnelInWords : Obligations.FunnelInWords := by
  intro va vb n hn
  refine ⟨?_, funnelRight_eq_or va vb hn⟩
  rw [funnelLeft_eq_funnelRight va vb hn, funnelRight_eq_or va vb (Nat.sub_le 32 n), Nat.sub_sub_self hn]

/-! ## Numbers of many words, shifted left (R208) -/

/-- The number with the words `w 0`, ..., `w (k - 1)`, the lowest first. -/
def wordsValue (w : Nat → BitVec 32) (k : Nat) : Nat :=
  ∑ j ∈ Finset.range k, (w j).toNat * 2 ^ (32 * j)

theorem wordsValue_succ (w : Nat → BitVec 32) (k : Nat) :
    wordsValue w (k + 1) = wordsValue w k + (w k).toNat * 2 ^ (32 * k) :=
  Finset.sum_range_succ _ k

theorem wordsValue_lt (w : Nat → BitVec 32) (k : Nat) : wordsValue w k < 2 ^ (32 * k) := by
  induction k with
  | zero => simp [wordsValue]
  | succ k ih =>
    have hw : (w k).toNat + 1 ≤ 2 ^ 32 := (w k).isLt
    calc wordsValue w (k + 1)
        = wordsValue w k + (w k).toNat * 2 ^ (32 * k) := wordsValue_succ w k
      _ < ((w k).toNat + 1) * 2 ^ (32 * k) := by rw [add_mul, one_mul]; omega
      _ ≤ 2 ^ 32 * 2 ^ (32 * k) := Nat.mul_le_mul_right _ hw
      _ = 2 ^ (32 * (k + 1)) := by rw [← pow_add]; congr 1; omega

/-- A shift left by at most `m` is what is left of a shift right by the rest of `m`. -/
theorem mul_pow_div_pow (x : Nat) {n m : Nat} (h : n ≤ m) : x * 2 ^ n / 2 ^ m = x / 2 ^ (m - n) := by
  rw [← Nat.sub_add_cancel h, pow_add, Nat.mul_div_mul_right _ _ (by positivity), Nat.add_sub_cancel]

/-- The word above the lowest `k + 1` words of the shifted number is the funnel of the two words that meet there. -/
theorem wordsValue_shift_word (w : Nat → BitVec 32) (k : Nat) {n : Nat} (hn : n ≤ 32) :
    wordsValue w (k + 2) * 2 ^ n / 2 ^ (32 * (k + 1)) % 2 ^ 32 = (funnelLeft (w k) (w (k + 1)) n).toNat := by
  have hlow : wordsValue w (k + 1) * 2 ^ n / 2 ^ (32 * (k + 1)) = (w k).toNat * 2 ^ n / 2 ^ 32 := by
    have hsplit : 32 * (k + 1) - n = 32 * k + (32 - n) := by omega
    rw [mul_pow_div_pow _ (by omega), mul_pow_div_pow _ hn, hsplit, pow_add, ← Nat.div_div_eq_div_mul, wordsValue_succ,
      Nat.add_mul_div_right _ _ (by positivity), Nat.div_eq_of_lt (wordsValue_lt w k), Nat.zero_add]
  have hleft : wordsValue w (k + 2) * 2 ^ n / 2 ^ (32 * (k + 1)) =
      (w k).toNat * 2 ^ n / 2 ^ 32 + (w (k + 1)).toNat * 2 ^ n := by
    rw [wordsValue_succ, add_mul, mul_right_comm, Nat.add_mul_div_right _ _ (by positivity), hlow]
  have hright : ((w (k + 1)).toNat * 2 ^ 32 + (w k).toNat) * 2 ^ n / 2 ^ 32 =
      (w k).toNat * 2 ^ n / 2 ^ 32 + (w (k + 1)).toNat * 2 ^ n := by
    rw [add_comm, add_mul, mul_right_comm, Nat.add_mul_div_right _ _ (by positivity)]
  rw [hleft, ← hright, funnelLeft_toNat, show 2 ^ 64 = 2 ^ 32 * 2 ^ 32 from rfl, Nat.mod_mul_right_div_self]

/-- The words that the left funnels and the lowest shift compute, as a number. -/
theorem shiftedWords_eq (w : Nat → BitVec 32) (c : BitVec 32) (k : Nat) :
    (shlBits .w32 (w 0) c).toNat +
        ∑ j ∈ Finset.range k, (funnelLeft (w j) (w (j + 1)) (clampAmount 32 c)).toNat * 2 ^ (32 * (j + 1)) =
      wordsValue w (k + 1) * 2 ^ clampAmount 32 c % 2 ^ (32 * (k + 1)) := by
  induction k with
  | zero => simp [shlBits_toNat, wordsValue, clampAmount, Width.bits]
  | succ k ih =>
    have hmod : wordsValue w (k + 2) * 2 ^ clampAmount 32 c % 2 ^ (32 * (k + 1)) =
        wordsValue w (k + 1) * 2 ^ clampAmount 32 c % 2 ^ (32 * (k + 1)) := by
      rw [wordsValue_succ, add_mul, mul_right_comm, Nat.add_mul_mod_self_right]
    have hpow : 2 ^ (32 * (k + 1 + 1)) = 2 ^ (32 * (k + 1)) * 2 ^ 32 := by rw [← pow_add]; congr 1
    rw [Finset.sum_range_succ, ← add_assoc, ih, hpow, Nat.mod_mul, hmod,
      wordsValue_shift_word w k (clampAmount_le 32 c), mul_comm (2 ^ (32 * (k + 1)))]

/-- Settles O56, by induction on the words: the number has one word more, which is the funnel at the top. -/
theorem multiWordLeftShift : Obligations.MultiWordLeftShift :=
  fun w k c => shiftedWords_eq w c k

/-! ## Numbers of many words, shifted right (R209) -/

/-- The low word of a shifted pair is the funnel, whatever stands above the pair's high word. -/
theorem pair_shift_mod (va vb : BitVec 32) {top : Int} (htop : top % 2 ^ 32 = vb.toNat) {n : Nat} (hn : n ≤ 32) :
    (va.toNat + top * 2 ^ 32) / 2 ^ n % 2 ^ 32 = (funnelRight va vb n).toNat := by
  obtain ⟨q, hq⟩ : ∃ q, top = vb.toNat + 2 ^ 32 * q := ⟨top / 2 ^ 32, by omega⟩
  have hpow : (2 : Int) ^ 32 = 2 ^ (32 - n) * 2 ^ n := by rw [← pow_add, Nat.sub_add_cancel hn]
  have hcut : (va.toNat + top * 2 ^ 32 : Int) =
      (vb.toNat * 2 ^ 32 + va.toNat) + (2 ^ 32 * (q * 2 ^ (32 - n))) * 2 ^ n := by
    rw [hq, mul_assoc (2 ^ 32) _ (2 ^ n : Int), mul_assoc q, ← hpow]
    ring
  rw [hcut, Int.add_mul_ediv_right _ _ (by positivity), Int.add_mul_emod_self_left, funnelRight_toNat]
  norm_cast

/-- The funnels up the words, and the top shifted by itself, make the whole number shifted. The top is any number whose
lowest 32 bits are the highest word: the word itself, or its two's complement reading. -/
theorem shiftedRight_eq (w : Nat → BitVec 32) {n : Nat} (hn : n ≤ 32) (k : Nat) :
    ∀ top : Int, top % 2 ^ 32 = (w k).toNat →
    (∑ j ∈ Finset.range k, ((funnelRight (w j) (w (j + 1)) n).toNat : Int) * 2 ^ (32 * j)) +
        top / 2 ^ n * 2 ^ (32 * k) =
      ((∑ j ∈ Finset.range k, ((w j).toNat : Int) * 2 ^ (32 * j)) + top * 2 ^ (32 * k)) / 2 ^ n := by
  induction k with
  | zero => intro top _; simp
  | succ k ih =>
    intro top htop
    have hlt : ((w k).toNat : Int) < 2 ^ 32 := by exact_mod_cast (w k).isLt
    have hpair : ((w k).toNat + top * 2 ^ 32) % 2 ^ 32 = ((w k).toNat : Int) := by omega
    have hhigh : ((w k).toNat + top * 2 ^ 32) / 2 ^ n / 2 ^ 32 = top / 2 ^ n := by
      have htop' : ((w k).toNat + top * 2 ^ 32) / 2 ^ 32 = top := by omega
      rw [Int.ediv_ediv_of_nonneg (by positivity), mul_comm (2 ^ n : Int), ← Int.ediv_ediv_of_nonneg (by positivity),
        htop']
    have hsplit : ((w k).toNat + top * 2 ^ 32) / 2 ^ n =
        ((funnelRight (w k) (w (k + 1)) n).toNat : Int) + top / 2 ^ n * 2 ^ 32 := by
      rw [← pair_shift_mod (w k) (w (k + 1)) htop hn, ← hhigh]
      omega
    have hpow : (2 : Int) ^ (32 * (k + 1)) = 2 ^ 32 * 2 ^ (32 * k) := by rw [← pow_add]; congr 1; omega
    have hstep := ih _ hpair
    rw [hsplit] at hstep
    have hwhole : ∀ low : Int, low + (w k).toNat * 2 ^ (32 * k) + top * (2 ^ 32 * 2 ^ (32 * k)) =
        low + ((w k).toNat + top * 2 ^ 32) * 2 ^ (32 * k) := fun low => by ring
    rw [Finset.sum_range_succ, Finset.sum_range_succ, hpow, hwhole, ← hstep]
    ring

/-- The two's complement reading of a word has the word as its lowest 32 bits. -/
theorem toInt_emod_word (v : BitVec 32) : v.toInt % 2 ^ 32 = v.toNat := by
  have hlt := v.isLt
  rw [BitVec.toInt_eq_toNat_cond]
  split <;> omega

/-- Settles O57: `shiftedRight_eq` with the highest word as a number, and with its two's complement reading. -/
theorem multiWordRightShift : Obligations.MultiWordRightShift := by
  intro w k c
  have hn : clampAmount 32 c ≤ 32 := clampAmount_le 32 c
  constructor
  · have hword : ((w k).toNat : Int) % 2 ^ 32 = (w k).toNat := by have := (w k).isLt; omega
    have h := shiftedRight_eq w hn k _ hword
    rw [Finset.sum_range_succ, shrZeroBits_toNat]
    exact_mod_cast h
  · rw [shrSignBits_toInt, Int.fdiv_eq_ediv_of_nonneg _ (by positivity), Int.fdiv_eq_ediv_of_nonneg _ (by positivity)]
    exact shiftedRight_eq w hn k _ (toInt_emod_word (w k))

end Sys2Proof.Machine
end
